-- ==== Sys2Proof/Word.lean ====
section
/-! DEFINITION. The word types of VU64-CORE (00_scope.md R7, R8, R9). -/

namespace Sys2Proof

/-- A byte: 8 bits, bit 0 the least significant (R8). -/
abbrev Byte := BitVec 8

/-- A 64-bit word: a `u64`, or the two's-complement pattern of an `i64` (R9; log entry 10). -/
abbrev Word := BitVec 64

/-- Nine bytes: the request buffer `IBUF[0..8]` or the result registers `RBUF[0..8]` (10_state.md R30). -/
abbrev Buf := Vector Byte 9

end Sys2Proof
end

