-- ==== Sys2Proof/Machine/Bytes.lean ====
section
/-! DEFINITION. Byte sequences, nine-byte buffers and the little-endian number of a byte sequence
(00_scope.md R10; 20_memory.md R40, R41). -/

namespace Sys2Proof.Machine

open Sys2Proof

/-- `LE(s)`: the sum of `s[i]·2^(8i)`; 0 for the empty sequence (R10). -/
def leNat : List Byte → Nat
  | [] => 0
  | b :: bs => b.toNat + 256 * leNat bs

/-- `LEbytes_k(w)`: the `k` bytes with byte `i` equal to `(w >> 8i) & 0xFF` (R10). -/
def leBytes (k w : Nat) : List Byte :=
  (List.range k).map fun i => BitVec.ofNat 8 (w >>> (8 * i))

/-- `pack_le(s)`: `LE(s)` as a 64-bit word, zero-padded (R10). -/
def packLe (s : List Byte) : Word := BitVec.ofNat 64 (leNat s)

/-- The buffer whose byte `i` is `f i`. -/
def bufOfFn (f : Nat → Byte) : Buf := #v[f 0, f 1, f 2, f 3, f 4, f 5, f 6, f 7, f 8]

/-- Nine zero bytes. -/
def zeroBuf : Buf := bufOfFn fun _ => 0

/-- The buffer that holds `s` from index 0 and 0x00 above it (41_encode.md R116). -/
def bufOfList (s : List Byte) : Buf := bufOfFn fun i => s.getD i 0

/-- Byte `i` of a buffer. The indices that exist are 0 to 8 (10_state.md R30), and no operation asks for another. -/
def bufByte (B : Buf) (i : Nat) : Byte := if h : i < 9 then B[i] else 0

/-- The bytes `B[i]` to `B[i+k-1]`. -/
def bufSlice (B : Buf) (i k : Nat) : List Byte := (List.range k).map fun j => bufByte B (i + j)

end Sys2Proof.Machine
end

