-- ==== Sys2Proof/Config.lean ====
section
/-! DEFINITION. What is fixed when the block is built: the parameters of 00_scope.md R7. -/

namespace Sys2Proof

/-- The one open parameter of the block (R7, 92_eei_decisions.md D4; log entry 3). -/
structure Config where
  /-- `HAS_SIGNED`: the zigzag unit and the signed operations exist. -/
  hasSigned : Bool
deriving DecidableEq, Repr

/-- The default build: `HAS_SIGNED` is true (R7). -/
def Config.standard : Config := { hasSigned := true }

/-- `MAX_LEN`: the longest encoding in bytes (R7). -/
def Config.maxLen : Nat := 9

end Sys2Proof
end

