-- ==== Sys2Proof/Syntax.lean ====
section
/-! DEFINITION. The instructions: one constructor per row of spec/opcode_table.json, and the packets that carry them.

An operation's constructor holds exactly the request fields the operation uses (30_encoding.md R73); the fields
it ignores are no part of it (log entry 12). A wire class's constructor holds the payload of 30_encoding.md R60:
`x` is the first byte's payload bits, `follow` the little-endian number of the follow bytes (log entry 4). -/

namespace Sys2Proof

/-- The 25 rows of the opcode table. -/
inductive Instr where
  /-- `ENCLEN`, op 0: encoded length of `a` (40_length.md R96). -/
  | enclen (a : Word)
  /-- `DECLEN`, op 1: length announced by the first byte `fb` (40_length.md R97). -/
  | declen (fb : Byte)
  /-- `ENC`, op 2: encode `a` (41_encode.md R110). -/
  | enc (a : Word)
  /-- `DEC`, op 3: decode the first `n` bytes of `ibuf` as one slice (42_decode.md R135). -/
  | dec (n : BitVec 4) (ibuf : Buf)
  /-- `DECS`, op 4: decode first byte `fb` and the first `n` follow bytes in `ibuf` (42_decode.md R136). -/
  | decs (n : BitVec 4) (fb : Byte) (ibuf : Buf)
  /-- `DECP`, op 5: decode first byte `fb` and the packed follow word `a` (42_decode.md R137). -/
  | decp (fb : Byte) (a : Word)
  /-- `ZZENC`, op 6: zigzag-encode `a` (43_zigzag_signed.md R157). -/
  | zzenc (a : Word)
  /-- `ZZDEC`, op 7: zigzag-decode `a` (43_zigzag_signed.md R158). -/
  | zzdec (a : Word)
  /-- `ENCI`, op 8: encode the signed value `a` (43_zigzag_signed.md R159). -/
  | enci (a : Word)
  /-- `DECI`, op 9: the signed form of `DEC` (43_zigzag_signed.md R160). -/
  | deci (n : BitVec 4) (ibuf : Buf)
  /-- `DECSI`, op 10: the signed form of `DECS` (43_zigzag_signed.md R161). -/
  | decsi (n : BitVec 4) (fb : Byte) (ibuf : Buf)
  /-- `DECPI`, op 11: the signed form of `DECP` (43_zigzag_signed.md R162). -/
  | decpi (fb : Byte) (a : Word)
  /-- `RESERVED_12`: op 12 selects no operation (60_exceptions.md R180). -/
  | reserved12
  /-- `RESERVED_13`: op 13 selects no operation (60_exceptions.md R180). -/
  | reserved13
  /-- `RESERVED_14`: op 14 selects no operation (60_exceptions.md R180). -/
  | reserved14
  /-- `RESERVED_15`: op 15 selects no operation (60_exceptions.md R180). -/
  | reserved15
  /-- `WIRE_L1`: first byte `0xxxxxxx`, no follow byte (30_encoding.md R60). -/
  | wireL1 (x : BitVec 7)
  /-- `WIRE_L2`: first byte `10xxxxxx`, 1 follow byte (30_encoding.md R60). -/
  | wireL2 (x : BitVec 6) (follow : BitVec 8)
  /-- `WIRE_L3`: first byte `110xxxxx`, 2 follow bytes (30_encoding.md R60). -/
  | wireL3 (x : BitVec 5) (follow : BitVec 16)
  /-- `WIRE_L4`: first byte `1110xxxx`, 3 follow bytes (30_encoding.md R60). -/
  | wireL4 (x : BitVec 4) (follow : BitVec 24)
  /-- `WIRE_L5`: first byte `11110xxx`, 4 follow bytes (30_encoding.md R60). -/
  | wireL5 (x : BitVec 3) (follow : BitVec 32)
  /-- `WIRE_L6`: first byte `111110xx`, 5 follow bytes (30_encoding.md R60). -/
  | wireL6 (x : BitVec 2) (follow : BitVec 40)
  /-- `WIRE_L7`: first byte `1111110x`, 6 follow bytes (30_encoding.md R60). -/
  | wireL7 (x : BitVec 1) (follow : BitVec 48)
  /-- `WIRE_L8`: first byte `0xFE`, 7 follow bytes (30_encoding.md R60, R62). -/
  | wireL8 (follow : BitVec 56)
  /-- `WIRE_L9`: first byte `0xFF`, 8 follow bytes (30_encoding.md R60, R63). -/
  | wireL9 (follow : BitVec 64)
deriving DecidableEq, Repr

/-- What the host hands to the block, still undecoded. -/
inductive Packet where
  /-- A request vector `REQ[151:0]` (30_encoding.md R70). -/
  | request (req : BitVec 152)
  /-- The bytes of a wire-format encoding, byte 0 first (20_memory.md R40; log entry 4). -/
  | wire (bytes : List Byte)
deriving DecidableEq, Repr

end Sys2Proof
end

