-- ==== Sys2Proof/WellFormed.lean ====
section
/-! DEFINITION. Which instructions a host presents expecting a result: the code selects an operation of this build
(30_encoding.md R72, R74; 43_zigzag_signed.md R166), and a wire encoding is canonical (30_encoding.md R66 (b)).
The types already give every operand its width, so nothing else can be ill-formed. An ill-formed instruction still
decodes and still has its meaning (an error status): these checks are a claim's vocabulary, not a guard of the step. -/

namespace Sys2Proof

/-- The code is not one of 12 to 15 (R74). -/
def Instr.notReserved : Instr → Bool
  | .reserved12 => false
  | .reserved13 => false
  | .reserved14 => false
  | .reserved15 => false
  | .enclen _ => true
  | .declen _ => true
  | .enc _ => true
  | .dec _ _ => true
  | .decs _ _ _ => true
  | .decp _ _ => true
  | .zzenc _ => true
  | .zzdec _ => true
  | .enci _ => true
  | .deci _ _ => true
  | .decsi _ _ _ => true
  | .decpi _ _ => true
  | .wireL1 _ => true
  | .wireL2 _ _ => true
  | .wireL3 _ _ => true
  | .wireL4 _ _ => true
  | .wireL5 _ _ => true
  | .wireL6 _ _ => true
  | .wireL7 _ _ => true
  | .wireL8 _ => true
  | .wireL9 _ => true

/-- The operation is one of the optional codes 6 to 11 (R72). -/
def Instr.isSigned : Instr → Bool
  | .zzenc _ => true
  | .zzdec _ => true
  | .enci _ => true
  | .deci _ _ => true
  | .decsi _ _ _ => true
  | .decpi _ _ => true
  | .reserved12 => false
  | .reserved13 => false
  | .reserved14 => false
  | .reserved15 => false
  | .enclen _ => false
  | .declen _ => false
  | .enc _ => false
  | .dec _ _ => false
  | .decs _ _ _ => false
  | .decp _ _ => false
  | .wireL1 _ => false
  | .wireL2 _ _ => false
  | .wireL3 _ _ => false
  | .wireL4 _ _ => false
  | .wireL5 _ _ => false
  | .wireL6 _ _ => false
  | .wireL7 _ _ => false
  | .wireL8 _ => false
  | .wireL9 _ => false

/-- The value a wire encoding carries is not below the least value of its length class (30_encoding.md R65, R66). -/
def Instr.wireCanonical : Instr → Bool
  | .wireL1 _ => true
  | .wireL2 x follow => decide (2 ^ 7 ≤ x.toNat + 2 ^ 6 * follow.toNat)
  | .wireL3 x follow => decide (2 ^ 14 ≤ x.toNat + 2 ^ 5 * follow.toNat)
  | .wireL4 x follow => decide (2 ^ 21 ≤ x.toNat + 2 ^ 4 * follow.toNat)
  | .wireL5 x follow => decide (2 ^ 28 ≤ x.toNat + 2 ^ 3 * follow.toNat)
  | .wireL6 x follow => decide (2 ^ 35 ≤ x.toNat + 2 ^ 2 * follow.toNat)
  | .wireL7 x follow => decide (2 ^ 42 ≤ x.toNat + 2 ^ 1 * follow.toNat)
  | .wireL8 follow => decide (2 ^ 49 ≤ follow.toNat)
  | .wireL9 follow => decide (2 ^ 56 ≤ follow.toNat)
  | .enclen _ => true
  | .declen _ => true
  | .enc _ => true
  | .dec _ _ => true
  | .decs _ _ _ => true
  | .decp _ _ => true
  | .zzenc _ => true
  | .zzdec _ => true
  | .enci _ => true
  | .deci _ _ => true
  | .decsi _ _ _ => true
  | .decpi _ _ => true
  | .reserved12 => true
  | .reserved13 => true
  | .reserved14 => true
  | .reserved15 => true

/-- The code selects an operation of build `c` (R74, R166). -/
def Instr.selects (c : Config) (i : Instr) : Bool := i.notReserved && (c.hasSigned || !i.isSigned)

/-- All checks together, for build `c`. -/
def Instr.wellFormed (c : Config) (i : Instr) : Bool := i.selects c && i.wireCanonical

end Sys2Proof
end

