-- ==== Sys2Proof/Decode.lean ====
section
/-! DEFINITION. The decoder, from packets to instructions, and after it the encoder, both written from 30_encoding.md:
the request format of R70 and R72, and the wire format of R60 to R63. -/

namespace Sys2Proof

open Sys2Proof.Machine

/-- Why a packet is no instruction. -/
inductive DecodeError where
  /-- A wire packet of no bytes: there is no first byte (42_decode.md R134). -/
  | emptyWire
  /-- A wire packet with fewer bytes than its first byte calls for (30_encoding.md R66 (a)). -/
  | truncatedWire
deriving DecidableEq, Repr

/-! ### The request format -/

/-- `op = REQ[3:0]` (R70). -/
def reqOp (r : BitVec 152) : BitVec 4 := r.extractLsb' 0 4

/-- `n = REQ[7:4]` (R70). -/
def reqN (r : BitVec 152) : BitVec 4 := r.extractLsb' 4 4

/-- `fb = REQ[15:8]` (R70). -/
def reqFb (r : BitVec 152) : Byte := r.extractLsb' 8 8

/-- `a = REQ[79:16]` (R70). -/
def reqA (r : BitVec 152) : Word := r.extractLsb' 16 64

/-- `IBUF[i] = REQ[87+8i : 80+8i]` (R70). -/
def reqIbuf (r : BitVec 152) : Buf := bufOfFn fun i => r.extractLsb' (80 + 8 * i) 8

/-- The operation `op` selects, with the fields it uses (R72, R73, R74). Every request selects a row. -/
def decodeRequest (r : BitVec 152) : Instr :=
  match (reqOp r).toNat with
  | 0 => .enclen (reqA r)
  | 1 => .declen (reqFb r)
  | 2 => .enc (reqA r)
  | 3 => .dec (reqN r) (reqIbuf r)
  | 4 => .decs (reqN r) (reqFb r) (reqIbuf r)
  | 5 => .decp (reqFb r) (reqA r)
  | 6 => .zzenc (reqA r)
  | 7 => .zzdec (reqA r)
  | 8 => .enci (reqA r)
  | 9 => .deci (reqN r) (reqIbuf r)
  | 10 => .decsi (reqN r) (reqFb r) (reqIbuf r)
  | 11 => .decpi (reqFb r) (reqA r)
  | 12 => .reserved12
  | 13 => .reserved13
  | 14 => .reserved14
  -- a 4-bit code has no value above 15
  | _ => .reserved15

/-! ### The wire format -/

/-- The mask and match of the nine first-byte patterns, in the order of R60; row `k` announces length `k + 1`. -/
def wireRows : List (Byte × Byte) :=
  [(0x80, 0x00), (0xC0, 0x80), (0xE0, 0xC0), (0xF0, 0xE0), (0xF8, 0xF0), (0xFC, 0xF8), (0xFE, 0xFC), (0xFF, 0xFE),
    (0xFF, 0xFF)]

/-- `first_byte & mask == match` (R60). -/
def rowMatches (b : Byte) (row : Byte × Byte) : Bool := b &&& row.1 == row.2

/-- The total length the first byte announces: the place of the row it matches (R60, R67). -/
def wireLen (b : Byte) : Nat := wireRows.findIdx (rowMatches b) + 1

/-- The encoding of length `L` with first byte `b` and follow number `f` (R60 to R63). -/
def wireInstr (L : Nat) (b : Byte) (f : Nat) : Instr :=
  match L with
  | 1 => .wireL1 (b.setWidth 7)
  | 2 => .wireL2 (b.setWidth 6) (BitVec.ofNat 8 f)
  | 3 => .wireL3 (b.setWidth 5) (BitVec.ofNat 16 f)
  | 4 => .wireL4 (b.setWidth 4) (BitVec.ofNat 24 f)
  | 5 => .wireL5 (b.setWidth 3) (BitVec.ofNat 32 f)
  | 6 => .wireL6 (b.setWidth 2) (BitVec.ofNat 40 f)
  | 7 => .wireL7 (b.setWidth 1) (BitVec.ofNat 48 f)
  | 8 => .wireL8 (BitVec.ofNat 56 f)
  -- no first byte announces more than 9
  | _ => .wireL9 (BitVec.ofNat 64 f)

/-- One encoding from the front of a byte sequence, and the bytes after it (R67). -/
def decodeWire (bytes : List Byte) : Except DecodeError (Instr × List Byte) :=
  match bytes with
  | [] => .error .emptyWire
  | b :: rest =>
    let L := wireLen b
    if rest.length < L - 1 then .error .truncatedWire
    else .ok (wireInstr L b (leNat (rest.take (L - 1))), rest.drop (L - 1))

/-- The instruction a packet holds. Bytes after a wire packet's first encoding are ignored (42_decode.md R133;
log entry 5). -/
def decode (p : Packet) : Except DecodeError Instr :=
  match p with
  | .request r => .ok (decodeRequest r)
  | .wire bytes =>
    match decodeWire bytes with
    | .ok d => .ok d.1
    | .error e => .error e

/-! ### The encoder -/

/-- The request vector with the given fields, each at its place: `op` at bit 0, `n` at bit 4, `fb` at bit 8, `a` at
bit 16, the nine `IBUF` bytes from bit 80 (R70). -/
def packRequest (op n : BitVec 4) (fb : Byte) (a : Word) (ibuf : Buf) : BitVec 152 :=
  BitVec.ofNat 152
    (op.toNat + 2 ^ 4 * n.toNat + 2 ^ 8 * fb.toNat + 2 ^ 16 * a.toNat + 2 ^ 80 * leNat (bufSlice ibuf 0 9))

/-- The packet of an instruction; a request field it does not use is 0 (R76; log entry 12). -/
def encode (i : Instr) : Packet :=
  match i with
  | .enclen a => .request (packRequest 0 0 0 a zeroBuf)
  | .declen fb => .request (packRequest 1 0 fb 0 zeroBuf)
  | .enc a => .request (packRequest 2 0 0 a zeroBuf)
  | .dec n ibuf => .request (packRequest 3 n 0 0 ibuf)
  | .decs n fb ibuf => .request (packRequest 4 n fb 0 ibuf)
  | .decp fb a => .request (packRequest 5 0 fb a zeroBuf)
  | .zzenc a => .request (packRequest 6 0 0 a zeroBuf)
  | .zzdec a => .request (packRequest 7 0 0 a zeroBuf)
  | .enci a => .request (packRequest 8 0 0 a zeroBuf)
  | .deci n ibuf => .request (packRequest 9 n 0 0 ibuf)
  | .decsi n fb ibuf => .request (packRequest 10 n fb 0 ibuf)
  | .decpi fb a => .request (packRequest 11 0 fb a zeroBuf)
  | .reserved12 => .request (packRequest 12 0 0 0 zeroBuf)
  | .reserved13 => .request (packRequest 13 0 0 0 zeroBuf)
  | .reserved14 => .request (packRequest 14 0 0 0 zeroBuf)
  | .reserved15 => .request (packRequest 15 0 0 0 zeroBuf)
  | .wireL1 x => .wire [0b0#1 ++ x]
  | .wireL2 x follow => .wire ((0b10#2 ++ x) :: leBytes 1 follow.toNat)
  | .wireL3 x follow => .wire ((0b110#3 ++ x) :: leBytes 2 follow.toNat)
  | .wireL4 x follow => .wire ((0b1110#4 ++ x) :: leBytes 3 follow.toNat)
  | .wireL5 x follow => .wire ((0b11110#5 ++ x) :: leBytes 4 follow.toNat)
  | .wireL6 x follow => .wire ((0b111110#6 ++ x) :: leBytes 5 follow.toNat)
  | .wireL7 x follow => .wire ((0b1111110#7 ++ x) :: leBytes 6 follow.toNat)
  | .wireL8 follow => .wire (0xFE#8 :: leBytes 7 follow.toNat)
  | .wireL9 follow => .wire (0xFF#8 :: leBytes 8 follow.toNat)

/-! ### The opcode table's words -/

/-- The mask and match of an instruction's row of spec/opcode_table.json: of the request vector for an operation or a
reserved code (R72, R74), of the first byte for a wire class (R60). -/
def opcodeRow (i : Instr) : Nat × Nat :=
  match i with
  | .enclen _ => (0xF, 0x0)
  | .declen _ => (0xF, 0x1)
  | .enc _ => (0xF, 0x2)
  | .dec _ _ => (0xF, 0x3)
  | .decs _ _ _ => (0xF, 0x4)
  | .decp _ _ => (0xF, 0x5)
  | .zzenc _ => (0xF, 0x6)
  | .zzdec _ => (0xF, 0x7)
  | .enci _ => (0xF, 0x8)
  | .deci _ _ => (0xF, 0x9)
  | .decsi _ _ _ => (0xF, 0xA)
  | .decpi _ _ => (0xF, 0xB)
  | .reserved12 => (0xF, 0xC)
  | .reserved13 => (0xF, 0xD)
  | .reserved14 => (0xF, 0xE)
  | .reserved15 => (0xF, 0xF)
  | .wireL1 _ => (0x80, 0x00)
  | .wireL2 _ _ => (0xC0, 0x80)
  | .wireL3 _ _ => (0xE0, 0xC0)
  | .wireL4 _ _ => (0xF0, 0xE0)
  | .wireL5 _ _ => (0xF8, 0xF0)
  | .wireL6 _ _ => (0xFC, 0xF8)
  | .wireL7 _ _ => (0xFE, 0xFC)
  | .wireL8 _ => (0xFF, 0xFE)
  | .wireL9 _ => (0xFF, 0xFF)

/-- The bits an opcode-table row is tested on: the request vector, or a wire packet's first byte. -/
def packetBits (p : Packet) : Nat :=
  match p with
  | .request r => r.toNat
  | .wire bytes => (bytes.headD 0).toNat

/-- The packet a word of the opcode table stands for, its bits above `nbits` zero (log entry 6). The table's rows are
of two formats in two separate code spaces, and a one-byte word carries no sign of its format: with a zero high
nibble it is read as byte 0 of a request (`{n, op}` with `n = 0`), otherwise as a first byte of the wire format,
followed by as many zero bytes as the longest encoding has. A longer word is a request. -/
def tablePacket (nbits w : Nat) : Packet :=
  let bits := w % 2 ^ nbits
  if nbits ≤ 8 ∧ 16 ≤ bits then .wire (BitVec.ofNat 8 bits :: List.replicate (Config.maxLen - 1) 0)
  else .request (BitVec.ofNat 152 bits)

/-- The instruction the decoder reads from a word of the opcode table. -/
def decodeTableWord (nbits w : Nat) : Option Instr :=
  match decode (tablePacket nbits w) with
  | .ok i => some i
  | .error _ => none

end Sys2Proof
end

