-- ==== Sys2Proof/Machine/Classifier.lean ====
section
/-! DEFINITION. The functions of the length classifier (40_length.md R90 to R94) and the prefix function
(30_encoding.md R64). -/

namespace Sys2Proof.Machine

open Sys2Proof

/-- The run of zero bits of `v` from bit `k-1` downward. -/
def zeroRun (v : Word) : Nat → Nat
  | 0 => 0
  | k + 1 => if v.getLsbD k then 0 else 1 + zeroRun v k

/-- `clz64(v)`: the consecutive zero bits from bit 63 downward, 64 for `v = 0` (R90). -/
def clz64 (v : Word) : Nat := zeroRun v 64

/-- The run of one bits of `b` from bit `k-1` downward. -/
def oneRun (b : Byte) : Nat → Nat
  | 0 => 0
  | k + 1 => if b.getLsbD k then 1 + oneRun b k else 0

/-- `clo8(b)`: the consecutive one bits from bit 7 downward (R91). -/
def clo8 (b : Byte) : Nat := oneRun b 8

/-- The length in bytes of a value with `s` significant bits (R92). -/
def lenOfBits (s : Nat) : Nat :=
  if s ≤ 7 then 1 else if s ≤ 56 then (s + 6) / 7 else 9

/-- `encoded_len(v)` (R92), by the thresholds, as R99 asks, and not by a table access. -/
def encodedLen (v : Word) : Nat := lenOfBits (64 - clz64 v)

/-- `decoded_len(b) = clo8(b) + 1` (R94). -/
def decodedLen (b : Byte) : Nat := clo8 b + 1

/-- `prefix(L)`: the top `L-1` bits one, the others zero (R64): the low byte of `0xFF00 >> (L-1)`. -/
def prefixByte (L : Nat) : Byte := BitVec.ofNat 8 (0xFF00 >>> (L - 1))

end Sys2Proof.Machine
end

