-- ==== Sys2Proof/Machine/Codec.lean ====
section
/-! DEFINITION. The pure codec functions: `encode` (41_encode.md R111 to R115) and `unpack` (42_decode.md R126,
R127), and the zigzag transform (43_zigzag_signed.md R155, R156). -/

namespace Sys2Proof.Machine

open Sys2Proof

/-- `encode(v)`: the bytes of the canonical encoding, by the case `follow_len` selects (R111). -/
def encodeValue (v : Word) : List Byte :=
  let L := encodedLen v
  let followLen := L - 1
  if followLen = 0 then
    -- R112
    [v.setWidth 8]
  else if followLen ≤ 6 then
    -- R113: the shifted value's bytes, byte 0 overwritten with the prefix and the payload moved down
    let W := leBytes 8 (v <<< L).toNat
    (prefixByte L ||| (W.getD 0 0 >>> L)) :: (W.drop 1).take followLen
  else if followLen = 7 then
    -- R114
    0xFE#8 :: leBytes 7 v.toNat
  else
    -- R115
    0xFF#8 :: leBytes 8 v.toNat

/-- `unpack(L, b, F)`: the value carried by first byte `b` and follow number `F` under length `L`
(R126 for `L` = 1..7, R127 for `L` = 8 and 9). -/
def unpack (L : Nat) (b : Byte) (F : Word) : Word :=
  if L ≤ 7 then
    let low : Byte := b <<< L
    let W : Word := (F <<< 8) ||| low.setWidth 64
    W >>> L
  else F

/-- `zigzag_encode(v) = (v << 1) ^ (v >>s 63)` (R155). -/
def zigzagEncode (v : Word) : Word := (v <<< 1) ^^^ v.sshiftRight 63

/-- `zigzag_decode(u) = (u >> 1) ^ -(u & 1)` (R156). -/
def zigzagDecode (u : Word) : Word := (u >>> 1) ^^^ -(u &&& 1)

end Sys2Proof.Machine
end

