-- ==== Sys2Proof/Machine/Operands.lean ====
section
/-! DEFINITION. The operand forms (30_encoding.md R73; 20_memory.md R46): how an operation obtains the first byte
and the follow number `F` from its request fields. -/

namespace Sys2Proof.Machine

open Sys2Proof

/-- `MemRead(IBUF+i, k)`: the little-endian number of `k` bytes of the request buffer from index `i`
(00_scope.md R11). -/
def memRead (ibuf : Buf) (i k : Nat) : Word := packLe (bufSlice ibuf i k)

/-- Slice form: the first byte is `IBUF[0]` (42_decode.md R135). -/
def sliceFirst (ibuf : Buf) : Byte := bufByte ibuf 0

/-- Slice form: the follow bytes are `IBUF[1]` to `IBUF[L-1]` (42_decode.md R135). -/
def sliceFollow (ibuf : Buf) (L : Nat) : Word := memRead ibuf 1 (L - 1)

/-- Split form: the follow bytes are `IBUF[0]` to `IBUF[L-2]` (42_decode.md R136). -/
def splitFollow (ibuf : Buf) (L : Nat) : Word := memRead ibuf 0 (L - 1)

/-- Packed form: the low `8(L-1)` bits of the follow word, the rest masked off (42_decode.md R137, R138). -/
def packedFollow (w : Word) (L : Nat) : Word := w &&& BitVec.ofNat 64 (2 ^ (8 * (L - 1)) - 1)

end Sys2Proof.Machine
end

