-- ==== Sys2Proof/Machine/State.lean ====
section
/-! DEFINITION. The state of the block: the four response registers of 10_state.md R23 to R26, the build's
configuration and the host's script; how a step can end; the state after reset. -/

namespace Sys2Proof.Machine

open Sys2Proof

/-- The reasons to stop with a fault: none. An error of the block is a status in `RSTAT` after which it goes on
(60_exceptions.md R175, R183), no lookup can leave its table (70_reset_and_hazards.md R207) and every operation
terminates for every input (R208), so no constructor stands here and nobody raises one (safe; log entry 8). -/
inductive Fault where
deriving DecidableEq, Repr

/-- The reasons to refuse an instruction. -/
inductive Refusal where
  /-- An instruction without a meaning, by its mnemonic. Only an arm of `exec` could raise it, and no arm does:
  every row of the opcode table has its meaning (safe). -/
  | notModelled (mnemonic : String)
deriving DecidableEq, Repr

/-- The closed set of error kinds (60_exceptions.md R175). -/
inductive ErrKind where
  /-- The input ends before the length its first byte implies (R176). -/
  | truncated
  /-- The value would fit in fewer bytes than the input used (R177). -/
  | redundantEncode
  /-- The request's `op` selects no operation of this build (R180). -/
  | illegalOp
deriving DecidableEq, Repr

/-- What the host does at the block's ports between two steps (log entry 1). -/
inductive HostEvent where
  /-- It presents a packet, which the block answers in one step (70_reset_and_hazards.md R208). -/
  | present (p : Packet)
  /-- It resets the block (70_reset_and_hazards.md R200; log entry 7). -/
  | reset
deriving DecidableEq, Repr

/-- `Resp(req)`: the contents a step writes to the four registers together (10_state.md R27). -/
structure Response where
  stat : BitVec 4
  len : BitVec 4
  val : Word
  buf : Buf
deriving DecidableEq, Repr

/-- The whole state. The first four fields are the spec's (10_state.md R20); `config` is fixed when the block is
built (R31; log entry 3); `pending` is the model's own: the host events the step has not reached, oldest first
(log entry 1). -/
structure State where
  /-- `RSTAT` (R26). -/
  rstat : BitVec 4
  /-- `RLEN` (R24). -/
  rlen : BitVec 4
  /-- `RVAL` (R25). -/
  rval : Word
  /-- `RBUF[0..8]` (R23). -/
  rbuf : Buf
  /-- The build's parameter (00_scope.md R7). -/
  config : Config
  /-- The host's script. -/
  pending : List HostEvent
deriving DecidableEq, Repr

/-- A block of build `c` right after reset, with nothing presented (10_state.md R33). -/
def State.resetOf (c : Config) : State :=
  { rstat := 0, rlen := 0, rval := 0, rbuf := #v[0, 0, 0, 0, 0, 0, 0, 0, 0], config := c, pending := [] }

/-- The machine right after reset, in the default build (10_state.md R33; 00_scope.md R7). -/
def State.reset : State := State.resetOf Config.standard

end Sys2Proof.Machine
end

