-- ==== Sys2Proof/Machine/Flags.lean ====
section
/-! DEFINITION. The status computations: the codes of `RSTAT` (10_state.md R26), the truncation tests
(42_decode.md R131) and the canonicity validator (42_decode.md R128). -/

namespace Sys2Proof.Machine

open Sys2Proof

/-- `OK` (10_state.md R26). -/
def statusOk : BitVec 4 := 0

/-- `code(K)` (60_exceptions.md R181). -/
def ErrKind.code : ErrKind → BitVec 4
  | .truncated => 1
  | .redundantEncode => 2
  | .illegalOp => 3

/-- The truncation test of `decode`: no first byte, or fewer than `L` bytes (42_decode.md R131, R134). -/
def sliceTooShort (n L : Nat) : Bool := n == 0 || decide (n < L)

/-- The truncation test of `decode_split`: fewer than `L - 1` follow bytes (42_decode.md R131). -/
def followTooShort (n L : Nat) : Bool := decide (n < L - 1)

/-- `canon_ok(L, v)`: length 1 is exempt, otherwise `v >= 2^(7(L-1))` (42_decode.md R128). -/
def canonOk (L : Nat) (v : Word) : Bool := L == 1 || decide (2 ^ (7 * (L - 1)) ≤ v.toNat)

end Sys2Proof.Machine
end

