-- ==== Sys2Proof/Machine/Ops.lean ====
section
/-! DEFINITION. The named operations over the response registers: writing a response (10_state.md R27), raising an
error (60_exceptions.md R181), the gate of the optional zigzag unit (43_zigzag_signed.md R166), reset
(70_reset_and_hazards.md R200), and the response vector (30_encoding.md R71). -/

namespace Sys2Proof.Machine

open Sys2Proof

/-- All four registers are written together, and nothing else (R27). -/
def respond (r : Response) (s : State) : State :=
  { s with rstat := r.stat, rlen := r.len, rval := r.val, rbuf := r.buf }

/-- A success that produces a length only (10_state.md R27: a field not produced is written 0). -/
def okLen (len : Nat) : Response :=
  { stat := statusOk, len := BitVec.ofNat 4 len, val := 0, buf := zeroBuf }

/-- A success that produces a value only. -/
def okVal (val : Word) : Response :=
  { stat := statusOk, len := 0, val := val, buf := zeroBuf }

/-- A success that produces a value and the length it was decoded from (10_state.md R24). -/
def okDecoded (len : Nat) (val : Word) : Response :=
  { stat := statusOk, len := BitVec.ofNat 4 len, val := val, buf := zeroBuf }

/-- A success that produces an encoding: its bytes, zeros above them, and its length (41_encode.md R110, R116). -/
def okBytes (bytes : List Byte) : Response :=
  { stat := statusOk, len := BitVec.ofNat 4 bytes.length, val := 0, buf := bufOfList bytes }

/-- The response of a failure of kind `k`: its code, and nothing beyond its kind (60_exceptions.md R181). -/
def errResponse (k : ErrKind) : Response :=
  { stat := k.code, len := 0, val := 0, buf := zeroBuf }

/-- `raise K` (60_exceptions.md R181): the ONE way an error is taken. No control is transferred and nothing is saved
(R183), so there is no return from it either (R184): the next request overwrites the status. -/
def raise (k : ErrKind) (s : State) : State := respond (errResponse k) s

/-- Run `m` where the zigzag unit exists; elsewhere the code is reserved (43_zigzag_signed.md R166). -/
def withSigned (m : State → Host.Outcome State Fault Refusal) (s : State) : Host.Outcome State Fault Refusal :=
  if s.config.hasSigned then m s else .next (raise .illegalOp s)

/-- Reset: the four registers take their reset values, and nothing else happens (70_reset_and_hazards.md R200,
10_state.md R33; log entry 7). -/
def resetRegisters (s : State) : State :=
  respond { stat := statusOk, len := 0, val := 0, buf := zeroBuf } s

/-- `RSP[143:0]`: the four registers side by side, `RSTAT` at bit 0, `RLEN` at bit 4, `RVAL` at bit 8, the nine `RBUF`
bytes from bit 72 (30_encoding.md R71). -/
def responseVector (s : State) : BitVec 144 :=
  BitVec.ofNat 144
    (s.rstat.toNat + 2 ^ 4 * s.rlen.toNat + 2 ^ 8 * s.rval.toNat + 2 ^ 72 * leNat (bufSlice s.rbuf 0 9))

end Sys2Proof.Machine
end

