-- ==== Sys2Proof/Machine/Decoder.lean ====
section
/-! DEFINITION. The decoder (42_decode.md): its three entry points as functions with a sum-type result
(00_scope.md R12), and the operations `DEC`, `DECS`, `DECP`. -/

namespace Sys2Proof.Machine

open Sys2Proof

/-- What a successful decode yields: the value, and the length of the encoding it consumed (10_state.md R24). -/
structure Decoded where
  len : Nat
  val : Word
deriving DecidableEq, Repr

/-- The end every entry point shares: unpack, then judge canonicity (42_decode.md R132, steps 4 to 6). -/
def finishDecode (L : Nat) (b : Byte) (F : Word) : Except ErrKind Decoded :=
  let v := unpack L b F
  if canonOk L v then .ok { len := L, val := v } else .error .redundantEncode

/-- `decode(bytes)` of the first `n` bytes of `ibuf` (42_decode.md R135). -/
def decodeSlice (n : Nat) (ibuf : Buf) : Except ErrKind Decoded :=
  let b := sliceFirst ibuf
  let L := decodedLen b
  if sliceTooShort n L then .error .truncated else finishDecode L b (sliceFollow ibuf L)

/-- `decode_split(first_byte, follow_bytes)` with the first `n` bytes of `ibuf` (42_decode.md R136). -/
def decodeSplit (n : Nat) (fb : Byte) (ibuf : Buf) : Except ErrKind Decoded :=
  let L := decodedLen fb
  if followTooShort n L then .error .truncated else finishDecode L fb (splitFollow ibuf L)

/-- `decode_packed(first_byte, follow_word)` (42_decode.md R137). -/
def decodePacked (fb : Byte) (w : Word) : Except ErrKind Decoded :=
  let L := decodedLen fb
  finishDecode L fb (packedFollow w L)

/-- Deliver a decode's result: the value and its length, or the error's kind alone (42_decode.md R141). -/
def deliver (r : Except ErrKind Decoded) (s : State) : Host.Outcome State Fault Refusal :=
  match r with
  | .ok d => .next (respond (okDecoded d.len d.val) s)
  | .error k => .next (raise k s)

/-- `DEC` (42_decode.md R135). -/
def execDec (n : BitVec 4) (ibuf : Buf) (s : State) : Host.Outcome State Fault Refusal :=
  deliver (decodeSlice n.toNat ibuf) s

/-- `DECS` (42_decode.md R136). -/
def execDecs (n : BitVec 4) (fb : Byte) (ibuf : Buf) (s : State) : Host.Outcome State Fault Refusal :=
  deliver (decodeSplit n.toNat fb ibuf) s

/-- `DECP` (42_decode.md R137). -/
def execDecp (fb : Byte) (a : Word) (s : State) : Host.Outcome State Fault Refusal :=
  deliver (decodePacked fb a) s

end Sys2Proof.Machine
end

