-- ==== Sys2Proof/Machine/Encoder.lean ====
section
/-! DEFINITION. The encoder's operation `ENC` (41_encode.md R110). -/

namespace Sys2Proof.Machine

open Sys2Proof

/-- `ENC` (R110): the encoding in `RBUF[0..L]`, zeros above it (R116), its length in `RLEN`. -/
def execEnc (a : Word) (s : State) : Host.Outcome State Fault Refusal :=
  .next (respond (okBytes (encodeValue a)) s)

end Sys2Proof.Machine
end

