-- ==== Sys2Proof/Machine/Length.lean ====
section
/-! DEFINITION. The operations of the length classifier: `ENCLEN` and `DECLEN` (40_length.md R96, R97). -/

namespace Sys2Proof.Machine

open Sys2Proof

/-- `ENCLEN` (R96). -/
def execEnclen (a : Word) (s : State) : Host.Outcome State Fault Refusal :=
  .next (respond (okLen (encodedLen a)) s)

/-- `DECLEN` (R97). -/
def execDeclen (fb : Byte) (s : State) : Host.Outcome State Fault Refusal :=
  .next (respond (okLen (decodedLen fb)) s)

end Sys2Proof.Machine
end

