-- ==== Sys2Proof/Machine/Reserved.lean ====
section
/-! DEFINITION. The reserved operation codes 12 to 15: `IllegalOp`, no operand examined (60_exceptions.md R180,
30_encoding.md R74). -/

namespace Sys2Proof.Machine

/-- `RESERVED_12` (R180). -/
def execReserved12 (s : State) : Host.Outcome State Fault Refusal := .next (raise .illegalOp s)

/-- `RESERVED_13` (R180). -/
def execReserved13 (s : State) : Host.Outcome State Fault Refusal := .next (raise .illegalOp s)

/-- `RESERVED_14` (R180). -/
def execReserved14 (s : State) : Host.Outcome State Fault Refusal := .next (raise .illegalOp s)

/-- `RESERVED_15` (R180). -/
def execReserved15 (s : State) : Host.Outcome State Fault Refusal := .next (raise .illegalOp s)

end Sys2Proof.Machine
end

