-- ==== Sys2Proof/Machine/Wire.lean ====
section
/-! DEFINITION. The nine wire-format length classes (30_encoding.md R60). An encoding presented as data is decoded as
the exact slice it is, so its response is that of `DEC` on its own bytes (log entry 4): the first byte is put together
from the class's prefix code and the payload bits, and the shared end of the decoder does the rest. -/

namespace Sys2Proof.Machine

open Sys2Proof

/-- `WIRE_L1`: `0xxxxxxx` (R60, R61). -/
def execWireL1 (x : BitVec 7) (s : State) : Host.Outcome State Fault Refusal :=
  deliver (finishDecode 1 (0b0#1 ++ x) 0) s

/-- `WIRE_L2`: `10xxxxxx` and 1 follow byte (R60, R61). -/
def execWireL2 (x : BitVec 6) (follow : BitVec 8) (s : State) : Host.Outcome State Fault Refusal :=
  deliver (finishDecode 2 (0b10#2 ++ x) (follow.setWidth 64)) s

/-- `WIRE_L3`: `110xxxxx` and 2 follow bytes (R60, R61). -/
def execWireL3 (x : BitVec 5) (follow : BitVec 16) (s : State) : Host.Outcome State Fault Refusal :=
  deliver (finishDecode 3 (0b110#3 ++ x) (follow.setWidth 64)) s

/-- `WIRE_L4`: `1110xxxx` and 3 follow bytes (R60, R61). -/
def execWireL4 (x : BitVec 4) (follow : BitVec 24) (s : State) : Host.Outcome State Fault Refusal :=
  deliver (finishDecode 4 (0b1110#4 ++ x) (follow.setWidth 64)) s

/-- `WIRE_L5`: `11110xxx` and 4 follow bytes (R60, R61). -/
def execWireL5 (x : BitVec 3) (follow : BitVec 32) (s : State) : Host.Outcome State Fault Refusal :=
  deliver (finishDecode 5 (0b11110#5 ++ x) (follow.setWidth 64)) s

/-- `WIRE_L6`: `111110xx` and 5 follow bytes (R60, R61). -/
def execWireL6 (x : BitVec 2) (follow : BitVec 40) (s : State) : Host.Outcome State Fault Refusal :=
  deliver (finishDecode 6 (0b111110#6 ++ x) (follow.setWidth 64)) s

/-- `WIRE_L7`: `1111110x` and 6 follow bytes (R60, R61). -/
def execWireL7 (x : BitVec 1) (follow : BitVec 48) (s : State) : Host.Outcome State Fault Refusal :=
  deliver (finishDecode 7 (0b1111110#7 ++ x) (follow.setWidth 64)) s

/-- `WIRE_L8`: `0xFE` and 7 follow bytes (R60, R62). -/
def execWireL8 (follow : BitVec 56) (s : State) : Host.Outcome State Fault Refusal :=
  deliver (finishDecode 8 0xFE#8 (follow.setWidth 64)) s

/-- `WIRE_L9`: `0xFF` and 8 follow bytes (R60, R63). -/
def execWireL9 (follow : BitVec 64) (s : State) : Host.Outcome State Fault Refusal :=
  deliver (finishDecode 9 0xFF#8 follow) s

end Sys2Proof.Machine
end

