-- ==== Sys2Proof/Machine/Zigzag.lean ====
section
/-! DEFINITION. The zigzag unit and the signed operations (43_zigzag_signed.md R157 to R162). Each exists where
`HAS_SIGNED` is true and raises `IllegalOp` elsewhere (R166). -/

namespace Sys2Proof.Machine

open Sys2Proof

/-- The zigzag step after a decode: applied to a decoded value, never to an error (R160). -/
def signedResult (r : Except ErrKind Decoded) : Except ErrKind Decoded :=
  match r with
  | .ok d => .ok { len := d.len, val := zigzagDecode d.val }
  | .error k => .error k

/-- `ZZENC` (R157). -/
def execZzenc (a : Word) (s : State) : Host.Outcome State Fault Refusal :=
  withSigned (fun t => .next (respond (okVal (zigzagEncode a)) t)) s

/-- `ZZDEC` (R158). -/
def execZzdec (a : Word) (s : State) : Host.Outcome State Fault Refusal :=
  withSigned (fun t => .next (respond (okVal (zigzagDecode a)) t)) s

/-- `ENCI` (R159): `ENC` of the zigzag image. -/
def execEnci (a : Word) (s : State) : Host.Outcome State Fault Refusal :=
  withSigned (fun t => .next (respond (okBytes (encodeValue (zigzagEncode a))) t)) s

/-- `DECI` (R160). -/
def execDeci (n : BitVec 4) (ibuf : Buf) (s : State) : Host.Outcome State Fault Refusal :=
  withSigned (deliver (signedResult (decodeSlice n.toNat ibuf))) s

/-- `DECSI` (R161). -/
def execDecsi (n : BitVec 4) (fb : Byte) (ibuf : Buf) (s : State) : Host.Outcome State Fault Refusal :=
  withSigned (deliver (signedResult (decodeSplit n.toNat fb ibuf))) s

/-- `DECPI` (R162), with the masking of 42_decode.md R138. -/
def execDecpi (fb : Byte) (a : Word) (s : State) : Host.Outcome State Fault Refusal :=
  withSigned (deliver (signedResult (decodePacked fb a))) s

end Sys2Proof.Machine
end

