-- ==== Sys2Proof/Machine/Dispatch.lean ====
section
/-! DEFINITION. One arm per constructor of Instr: the instruction's own meaning. -/

namespace Sys2Proof.Machine

open Sys2Proof

-- The function of a decoded instruction on the state (30_encoding.md R72; 10_state.md R27).
def exec (i : Instr) (s : State) : Host.Outcome State Fault Refusal :=
  match i with
  | .enclen a => Sys2Proof.Machine.execEnclen a s
  | .declen fb => Sys2Proof.Machine.execDeclen fb s
  | .enc a => Sys2Proof.Machine.execEnc a s
  | .dec n ibuf => Sys2Proof.Machine.execDec n ibuf s
  | .decs n fb ibuf => Sys2Proof.Machine.execDecs n fb ibuf s
  | .decp fb a => Sys2Proof.Machine.execDecp fb a s
  | .zzenc a => Sys2Proof.Machine.execZzenc a s
  | .zzdec a => Sys2Proof.Machine.execZzdec a s
  | .enci a => Sys2Proof.Machine.execEnci a s
  | .deci n ibuf => Sys2Proof.Machine.execDeci n ibuf s
  | .decsi n fb ibuf => Sys2Proof.Machine.execDecsi n fb ibuf s
  | .decpi fb a => Sys2Proof.Machine.execDecpi fb a s
  | .reserved12 => Sys2Proof.Machine.execReserved12 s
  | .reserved13 => Sys2Proof.Machine.execReserved13 s
  | .reserved14 => Sys2Proof.Machine.execReserved14 s
  | .reserved15 => Sys2Proof.Machine.execReserved15 s
  | .wireL1 x => Sys2Proof.Machine.execWireL1 x s
  | .wireL2 x follow => Sys2Proof.Machine.execWireL2 x follow s
  | .wireL3 x follow => Sys2Proof.Machine.execWireL3 x follow s
  | .wireL4 x follow => Sys2Proof.Machine.execWireL4 x follow s
  | .wireL5 x follow => Sys2Proof.Machine.execWireL5 x follow s
  | .wireL6 x follow => Sys2Proof.Machine.execWireL6 x follow s
  | .wireL7 x follow => Sys2Proof.Machine.execWireL7 x follow s
  | .wireL8 follow => Sys2Proof.Machine.execWireL8 follow s
  | .wireL9 follow => Sys2Proof.Machine.execWireL9 follow s

end Sys2Proof.Machine
end

