-- ==== Sys2Proof/Machine/Serve.lean ====
section
/-! DEFINITION. What one step does with the host's script: it takes the oldest event and answers it. -/

namespace Sys2Proof.Machine

open Sys2Proof

/-- Answer a packet: decode it and run the instruction. The decoder rejects a packet only when it is a wire encoding
with too few bytes, and that is the error `Truncated` (42_decode.md R131, R134; log entry 5). -/
def answerPacket (p : Packet) (s : State) : Host.Outcome State Fault Refusal :=
  match decode p with
  | .ok i => exec i s
  | .error .emptyWire => .next (raise .truncated s)
  | .error .truncatedWire => .next (raise .truncated s)

/-- Answer a host event. -/
def answerEvent (e : HostEvent) (s : State) : Host.Outcome State Fault Refusal :=
  match e with
  | .present p => answerPacket p s
  | .reset => .next (resetRegisters s)

/-- The state with the host's script replaced. -/
def withPending (es : List HostEvent) (s : State) : State := { s with pending := es }

/-- One step: the oldest event leaves the script and is answered. With nothing presented the registers hold their
values (10_state.md R20; log entry 2). -/
def serve (s : State) : Host.Outcome State Fault Refusal :=
  match s.pending with
  | [] => .next s
  | e :: rest => answerEvent e (withPending rest s)

/-- The state whose oldest event presents packet `p`. -/
def presentFirst (p : Packet) (s : State) : State := withPending (.present p :: s.pending) s

end Sys2Proof.Machine
end

