-- ==== Sys2Proof/Machine/Step.lean ====
section
/-! DEFINITION. The step of the block (10_state.md R27) over the host's script. -/

namespace Sys2Proof.Machine

open Sys2Proof

/-- One step of the machine. -/
def step (s : State) : Host.Outcome State Fault Refusal := serve s

/-- The state in which the very next step runs the opcode table's word: its packet is presented first (log entries 1
and 6). -/
def State.withFetchWord (s : State) (nbits w : Nat) : State := presentFirst (tablePacket nbits w) s

end Sys2Proof.Machine
end

