-- ==== Sys2Proof/Machine/Asm.lean ====
section
/-! DEFINITION. The assembler notation of 30_encoding.md R76 for the operations that take a byte sequence; the other
mnemonics are the constructors of Instr themselves. -/

namespace Sys2Proof.Machine

open Sys2Proof

/-- The `n` field of a slice of `k` bytes: `min(k, 9)` (R76). -/
def sliceCount (bytes : List Byte) : BitVec 4 := BitVec.ofNat 4 (min bytes.length Config.maxLen)

/-- The `n` field of `k` follow bytes: `min(k, 8)` (R76). -/
def followCount (follow : List Byte) : BitVec 4 := BitVec.ofNat 4 (min follow.length (Config.maxLen - 1))

/-- `DEC [b0 b1 ...]`. -/
def asmDec (bytes : List Byte) : Instr := .dec (sliceCount bytes) (bufOfList (bytes.take Config.maxLen))

/-- `DECS b, [f0 f1 ...]`. -/
def asmDecs (b : Byte) (follow : List Byte) : Instr := .decs (followCount follow) b (bufOfList (follow.take (Config.maxLen - 1)))

/-- `DECI [b0 b1 ...]`. -/
def asmDeci (bytes : List Byte) : Instr := .deci (sliceCount bytes) (bufOfList (bytes.take Config.maxLen))

/-- `DECSI b, [f0 f1 ...]`. -/
def asmDecsi (b : Byte) (follow : List Byte) : Instr := .decsi (followCount follow) b (bufOfList (follow.take (Config.maxLen - 1)))

end Sys2Proof.Machine
end

