-- ==== Sys2Proof/Machine/Pseudo.lean ====
section
/-! DEFINITION. The pseudo-operations of 30_encoding.md R77, and the signed forms of the stream sequences that
60_exceptions.md R189 adds: what a host performs with the block. None adds behaviour to the block: each is written over
`exec` alone. `PACKLE` is `packLe`. -/

namespace Sys2Proof.Machine

open Sys2Proof

/-- Perform an instruction and hand the state with its response to what the host does next. -/
def thenHost {α : Type} (o : Host.Outcome State Fault Refusal) (k : State → Option α) : Option α :=
  match o with
  | .next t => k t
  | .fault _ => none
  | .refused _ => none

/-- The significant bytes of the result buffer, `RBUF[0..RLEN]` (10_state.md R23). -/
def resultBytes (s : State) : List Byte := bufSlice s.rbuf 0 s.rlen.toNat

/-- `ENCLENI s`: `ZZENC s`, then `ENCLEN` of its `RVAL` (R77, 43_zigzag_signed.md R163). DESIGN CHOICE (log entry 17):
in a build without the zigzag unit `ZZENC` answers `IllegalOp` (R166), and the sequence ends there with that state;
the host reads no `RVAL` after an error (60_exceptions.md R181). -/
def hostEncleni (v : Word) (s : State) : Option State :=
  thenHost (exec (.zzenc v) s) fun t =>
    if t.rstat = 0 then thenHost (exec (.enclen t.rval) t) fun u => some u else some t

/-- Read one value from a stream (R77, 60_exceptions.md R189): one byte `b`, `DECLEN b`, then `RLEN - 1` further
bytes, and the split decode `decodeSplitOf b follow`. It yields the state and the rest of the stream, or none where the
source runs dry: that is the host's own I/O error, and the block is not asked (log entry 15). -/
def hostReadWith (decodeSplitOf : Byte → List Byte → Instr) (stream : List Byte) (s : State) :
    Option (State × List Byte) :=
  match stream with
  | [] => none
  | b :: rest =>
    thenHost (exec (.declen b) s) fun t =>
      let need := t.rlen.toNat - 1
      if rest.length < need then none
      else thenHost (exec (decodeSplitOf b (rest.take need)) t) fun u => some (u, rest.drop need)

/-- Read one unsigned value from a stream: the split decode is `DECS` (R77, R189). -/
def hostReadOne (stream : List Byte) (s : State) : Option (State × List Byte) := hostReadWith asmDecs stream s

/-- Read one signed value from a stream: the split decode is `DECSI` (R189, "or `DECSI`"). Without the zigzag unit the
state then holds `DECSI`'s `IllegalOp` (log entry 17). -/
def hostReadOneSigned (stream : List Byte) (s : State) : Option (State × List Byte) := hostReadWith asmDecsi stream s

/-- Write one value to a stream (R77, R189): an encode, then the bytes `RBUF[0..RLEN]`. After an error the host reads
neither register (R181) and writes nothing (log entry 17). -/
def hostWriteWith (encodeOp : Instr) (s : State) : Option (State × List Byte) :=
  thenHost (exec encodeOp s) fun t => some (t, if t.rstat = 0 then resultBytes t else [])

/-- Write one unsigned value to a stream: the encode is `ENC` (R77, R189), which never fails. -/
def hostWriteOne (v : Word) (s : State) : Option (State × List Byte) := hostWriteWith (.enc v) s

/-- Write one signed value to a stream: the encode is `ENCI` (R189, "or `ENCI`"). -/
def hostWriteOneSigned (v : Word) (s : State) : Option (State × List Byte) := hostWriteWith (.enci v) s

/-- A container from a byte slice (R77): `DEC [bytes]`, and if it succeeds `ENC` of its `RVAL`. A codec error is
propagated: the state then holds its status. -/
def hostContainer (bytes : List Byte) (s : State) : Option State :=
  thenHost (exec (asmDec bytes) s) fun t =>
    if t.rstat = 0 then thenHost (exec (.enc t.rval) t) fun u => some u else some t

end Sys2Proof.Machine
end

