-- ==== Sys2Proof/Safety.lean ====
section
/-! DEFINITION. The vocabulary of claims: what a response shows, the wire format by value (independent of the codec's
bit-level definitions), which status an instruction may end with, and the invariant of the registers. -/

namespace Sys2Proof.Machine

open Sys2Proof

/-! ### Responses -/

/-- No byte written but zeros. -/
def noBytes : Nat → Nat := fun _ => 0

/-- The four registers hold these numbers. -/
def Shows (t : State) (stat len val : Nat) (buf : Nat → Nat) : Prop :=
  t.rstat.toNat = stat ∧ t.rlen.toNat = len ∧ t.rval.toNat = val ∧ ∀ i < 9, (bufByte t.rbuf i).toNat = buf i

/-- The instruction completes, and the registers then hold these numbers. -/
def Answers (i : Instr) (s : State) (stat len val : Nat) (buf : Nat → Nat) : Prop :=
  ∃ t, exec i s = .next t ∧ Shows t stat len val buf

/-- The instruction completes with this status. -/
def EndsWith (i : Instr) (s : State) (stat : Nat) : Prop :=
  ∃ t, exec i s = .next t ∧ t.rstat.toNat = stat

/-- Two states hold the same response. -/
def SameResponse (s t : State) : Prop :=
  s.rstat = t.rstat ∧ s.rlen = t.rlen ∧ s.rval = t.rval ∧ s.rbuf = t.rbuf

/-- Every request whose `op` field is `k` decodes to `f` of it, whatever its other fields hold
(30_encoding.md R70, R72, R73). -/
def SelectedBy (k : Nat) (f : BitVec 152 → Instr) : Prop :=
  ∀ r : BitVec 152, r.toNat % 16 = k → decode (.request r) = .ok (f r)

/-! ### The wire format by value -/

/-- The first byte `b` announces total length `L`: its top `L - 1` bits are one, and for `L ≤ 8` the next is zero
(40_length.md R91, R94). -/
abbrev Announces (b L : Nat) : Prop :=
  1 ≤ L ∧ L ≤ 9 ∧ 256 - 2 ^ (9 - L) ≤ b ∧ (L ≤ 8 → b < 256 - 2 ^ (8 - L))

/-- `L` is the least of 1 to 8 with `v < 2^(7L)`, and 9 when there is none (40_length.md R92). -/
abbrev LeastLen (v L : Nat) : Prop :=
  1 ≤ L ∧ L ≤ 9 ∧ (L ≤ 8 → v < 2 ^ (7 * L)) ∧ (2 ≤ L → 2 ^ (7 * (L - 1)) ≤ v)

/-- Byte `i` of the canonical encoding of `v` in its length class `L`, case by case (41_encode.md R112 to R115);
zero above the encoding (R116). -/
def layoutByte (L v i : Nat) : Nat :=
  if L ≤ i then 0
  else if L = 1 then v
  else if L ≤ 7 then
    if i = 0 then (256 - 2 ^ (9 - L)) + v % 2 ^ (8 - L) else v / 2 ^ (8 * i - L) % 256
  else if L = 8 then
    if i = 0 then 0xFE else v / 2 ^ (8 * i - 8) % 256
  else
    if i = 0 then 0xFF else v / 2 ^ (8 * i - 8) % 256

/-- `LE` of `k` bytes (00_scope.md R10). -/
def followNumber (f : Nat → Nat) (k : Nat) : Nat := ∑ j ∈ Finset.range k, f j * 2 ^ (8 * j)

/-- The value carried by first byte `b` and follow number `F` under length `L` (42_decode.md R126, R127). -/
def payload (L b F : Nat) : Nat := if L ≤ 7 then b % 2 ^ (8 - L) + F * 2 ^ (8 - L) else F

/-- The value a slice carries under length `L`. -/
def slicePayload (L : Nat) (B : Buf) : Nat :=
  payload L (bufByte B 0).toNat (followNumber (fun j => (bufByte B (j + 1)).toNat) (L - 1))

/-- `v` is not too small for length `L` (42_decode.md R128). -/
abbrev Canonical (L v : Nat) : Prop := L = 1 ∨ 2 ^ (7 * (L - 1)) ≤ v

/-- The two outcomes of a decode that has all its bytes (42_decode.md R132, steps 4 to 6): the value, or too many bytes
for the value. `out` is what `RVAL` shows of the unpacked value. -/
def AnswersUnpacked (i : Instr) (s : State) (L v : Nat) (out : Nat → Nat) : Prop :=
  (Canonical L v → Answers i s 0 L (out v) noBytes) ∧ (¬ Canonical L v → Answers i s 2 0 0 noBytes)

/-- The three outcomes of a decode, in the order of its checks (42_decode.md R132): too few bytes first. -/
def AnswersDecode (i : Instr) (s : State) (complete : Prop) (L v : Nat) (out : Nat → Nat) : Prop :=
  (¬ complete → Answers i s 1 0 0 noBytes) ∧ (complete → AnswersUnpacked i s L v out)

/-- The 64-bit two's-complement pattern of a number (00_scope.md R9; log entry 10). -/
def pattern (z : Int) : Nat := (z % 2 ^ 64).toNat

/-- `zigzag_encode` by value (43_zigzag_signed.md R155). -/
def zigzagIn (v : Int) : Nat := if 0 ≤ v then (2 * v).toNat else (-2 * v - 1).toNat

/-- `zigzag_decode` by value (43_zigzag_signed.md R156). -/
def zigzagOut (u : Nat) : Int := if u % 2 = 0 then ((u / 2 : Nat) : Int) else -(((u + 1) / 2 : Nat) : Int)

/-! ### Statuses -/

/-- The statuses an instruction may end with (60_exceptions.md R179); the wire classes have the column of `DECP`,
and class 1 is never redundant. -/
def statusColumn (hasSigned : Bool) : Instr → List Nat
  | .enclen _ => [0]
  | .declen _ => [0]
  | .enc _ => [0]
  | .dec _ _ => [0, 1, 2]
  | .decs _ _ _ => [0, 1, 2]
  | .decp _ _ => [0, 2]
  | .zzenc _ => if hasSigned then [0] else [3]
  | .zzdec _ => if hasSigned then [0] else [3]
  | .enci _ => if hasSigned then [0] else [3]
  | .deci _ _ => if hasSigned then [0, 1, 2] else [3]
  | .decsi _ _ _ => if hasSigned then [0, 1, 2] else [3]
  | .decpi _ _ => if hasSigned then [0, 2] else [3]
  | .reserved12 => [3]
  | .reserved13 => [3]
  | .reserved14 => [3]
  | .reserved15 => [3]
  | .wireL1 _ => [0]
  | .wireL2 _ _ => [0, 2]
  | .wireL3 _ _ => [0, 2]
  | .wireL4 _ _ => [0, 2]
  | .wireL5 _ _ => [0, 2]
  | .wireL6 _ _ => [0, 2]
  | .wireL7 _ _ => [0, 2]
  | .wireL8 _ => [0, 2]
  | .wireL9 _ => [0, 2]

/-! ### The invariant -/

/-- What the registers always satisfy: only the values the spec lets them hold (10_state.md R24, R26), nothing but the
kind after an error (60_exceptions.md R181), zeros above the length (R23), and a nonzero result buffer is the canonical
encoding of one value, alone in the response (R29). -/
structure State.Legal (s : State) : Prop where
  statusWritten : s.rstat.toNat ≤ 3
  lengthWritten : s.rlen.toNat ≤ 9
  errorsCarryNothing : s.rstat.toNat ≠ 0 →
    s.rlen.toNat = 0 ∧ s.rval.toNat = 0 ∧ ∀ i < 9, (bufByte s.rbuf i).toNat = 0
  zeroAboveLength : ∀ i < 9, s.rlen.toNat ≤ i → (bufByte s.rbuf i).toNat = 0
  bufferCanonical : (∃ i < 9, (bufByte s.rbuf i).toNat ≠ 0) →
    s.rval.toNat = 0 ∧ Announces (bufByte s.rbuf 0).toNat s.rlen.toNat ∧
      Canonical s.rlen.toNat (slicePayload s.rlen.toNat s.rbuf)

end Sys2Proof.Machine
end

