-- ==== Sys2Proof/Certificates/Slice0/Obligations.lean ====
section
/-! DEFINITION. The statements about the model, each with the rule or section of spec/ it formalises. -/

open Sys2Proof Sys2Proof.Machine

/-- In every build, and in State.reset in particular, the four response registers hold the reset values the rule
lists. States R33. -/
def Obligations.ResetClearsEveryRegister : Prop :=
  (∀ c : Config, Shows (State.resetOf c) 0 0 0 noBytes) ∧ Shows State.reset 0 0 0 noBytes

/-- A step whose oldest host event is a reset answers a next state with the reset values in all registers, the same
build and the remaining script. That reset is an event of the host's script is the model's choice (log entries 1 and
7). From 70_reset_and_hazards.md section 1. -/
def Obligations.ResetEventClearsTheRegistersAndNothingElse : Prop :=
  ∀ (s : State) (rest : List HostEvent), s.pending = .reset :: rest →
    ∃ t, step s = .next t ∧ Shows t 0 0 0 noBytes ∧ t.config = s.config ∧ t.pending = rest

/-- If the oldest host event presents a packet that decodes to instruction i, the step is exec of i at the state with
that event removed from the script. The script is the model's own field (log entry 1). From 10_state.md section 2 (the
step of the block), 30_encoding.md Part B. -/
def Obligations.StepRunsTheDecodedInstruction : Prop :=
  ∀ (s : State) (p : Packet) (rest : List HostEvent) (i : Instr), s.pending = .present p :: rest → decode p = .ok i →
    step s = exec i { s with pending := rest }

/-- With an empty script the step answers the same state: the registers hold the last response until the next
operation. That such a step exists at all is the model's choice (log entry 2). From 10_state.md section 1,
70_reset_and_hazards.md section 1. -/
def Obligations.StepWithNothingPresentedHoldsItsState : Prop :=
  ∀ s : State, s.pending = [] → step s = .next s

/-- A step on a presented wire packet that has fewer bytes than its first byte announces answers a next state with
status 1 and all other registers zero; the empty packet counts as announcing one byte. That wire packets can be
presented is the model's choice (log entries 4 and 5). From 42_decode.md section 4, 60_exceptions.md section 1. -/
def Obligations.ShortWirePacketAnswersTruncated : Prop :=
  ∀ (s : State) (bytes : List Byte) (rest : List HostEvent) (L : Nat), s.pending = .present (.wire bytes) :: rest →
    Announces (bytes.headD 0).toNat L → bytes.length < L →
    ∃ t, step s = .next t ∧ Shows t 1 0 0 noBytes ∧ t.config = s.config ∧ t.pending = rest

/-- From every state, legal or not, in either build and for every script, the step answers a next state. The script,
and that a step with nothing presented holds the state, are the model's choice (log entries 1 and 2). From
70_reset_and_hazards.md section 4. -/
def Obligations.EveryStepCompletes : Prop :=
  ∀ s : State, ∃ t, step s = .next t

/-- For every place of a script that presents a packet of an instruction, running one step for each event before it
and one for itself keeps the build, leaves in the registers exactly the response that the instruction gives at the
starting state (no earlier event shows), and leaves in the script exactly the events after that place. The script is
the model's own field (log entry 1). From 20_memory.md section 6, 70_reset_and_hazards.md section 3, 10_state.md
section 1. -/
def Obligations.ScriptIsAnsweredInOrder : Prop :=
  ∀ (es rest : List HostEvent) (p : Packet) (i : Instr) (s : State), s.pending = es ++ .present p :: rest →
    decode p = .ok i →
    ∃ t u, Sys2Proof.core.run (es.length + 1) s = .next t ∧ t.pending = rest ∧ t.config = s.config ∧
      exec i s = .next u ∧ SameResponse t u

/-- Frame: exec of any instruction leaves config and pending as they were (every response register is written by every
instruction, so the frame holds nothing else), and a step leaves config as it was. Both fields are the model's own
(log entries 1 and 3). From 10_state.md section 3, 00_scope.md section 3. -/
def Obligations.NothingChangesTheBuildOrTheScript : Prop :=
  (∀ (i : Instr) (s t : State), exec i s = .next t → t.config = s.config ∧ t.pending = s.pending) ∧
    ∀ s t : State, step s = .next t → t.config = s.config

/-- Two states of the same build, however their registers and scripts differ, give the same response to the same
instruction; so presenting an instruction again right after itself gives the same response again. From 10_state.md
section 1, 20_memory.md section 4. -/
def Obligations.ResponseDependsOnTheRequestAlone : Prop :=
  (∀ (i : Instr) (s s' t t' : State), s.config = s'.config → exec i s = .next t → exec i s' = .next t' →
      SameResponse t t') ∧
    ∀ (i : Instr) (s t : State), exec i s = .next t → ∃ u, exec i t = .next u ∧ SameResponse t u

/-- For each of the three error kinds, raising it gives the status 1, 2 or 3 with RLEN, RVAL and RBUF zero, and leaves
the rest of the state alone. States R181. -/
def Obligations.RaiseWritesTheCodeAndZeros : Prop :=
  ∀ s : State, (Shows (raise .truncated s) 1 0 0 noBytes ∧ Shows (raise .redundantEncode s) 2 0 0 noBytes ∧
      Shows (raise .illegalOp s) 3 0 0 noBytes) ∧
    ∀ k, (raise k s).config = s.config ∧ (raise k s).pending = s.pending

/-- For every state, RSP[3:0] is RSTAT, RSP[7:4] is RLEN, RSP[71:8] is RVAL and RSP[79+8i:72+8i] is RBUF[i]; and byte
0 is {RLEN, RSTAT}, bytes 1 to 8 are the little-endian bytes of RVAL, bytes 9 to 17 are RBUF[0] to RBUF[8]. States
R71. -/
def Obligations.ResponseVectorHoldsTheRegisters : Prop :=
  ∀ s : State,
    (responseVector s).extractLsb' 0 4 = s.rstat ∧ (responseVector s).extractLsb' 4 4 = s.rlen ∧
    (responseVector s).extractLsb' 8 64 = s.rval ∧
    (∀ i < 9, (responseVector s).extractLsb' (72 + 8 * i) 8 = bufByte s.rbuf i) ∧
    ((responseVector s).extractLsb' 0 8).toNat = 16 * s.rlen.toNat + s.rstat.toNat ∧
    (∀ k, 1 ≤ k → k ≤ 8 → ((responseVector s).extractLsb' (8 * k) 8).toNat = s.rval.toNat / 2 ^ (8 * (k - 1)) % 256) ∧
    (∀ k, 9 ≤ k → k ≤ 17 → (responseVector s).extractLsb' (8 * k) 8 = bufByte s.rbuf (k - 9))

/-- Every request with op 0 decodes to ENCLEN of its field a; for every operand ENCLEN completes with OK, RVAL and
RBUF zero, and in RLEN the least L of 1 to 8 with a < 2^(7L), or 9 if there is none. States R96. -/
def Obligations.EnclenAnswersTheLeastLength : Prop :=
  SelectedBy 0 (fun r => .enclen (r.extractLsb' 16 64)) ∧
    ∀ (a : Word) (s : State), ∃ L, LeastLen a.toNat L ∧ Answers (.enclen a) s 0 L 0 noBytes

/-- For every k of 0 to 64 and every value with exactly k leading zero bits, ENCLEN answers the k-th entry of the
table the spec derives: eight 9s, seven each of 8 down to 2, eight 1s. From 40_length.md section 2 (the 65-entry
table). -/
def Obligations.EnclenFollowsTheLeadingZeroTable : Prop :=
  ∀ (a : Word) (s : State) (k : Nat), (a = 0 ∧ k = 64) ∨ (k ≤ 63 ∧ 2 ^ (63 - k) ≤ a.toNat ∧ a.toNat < 2 ^ (64 - k)) →
    Answers (.enclen a) s 0
      ((List.replicate 8 9 ++ List.replicate 7 8 ++ List.replicate 7 7 ++ List.replicate 7 6 ++ List.replicate 7 5 ++
        List.replicate 7 4 ++ List.replicate 7 3 ++ List.replicate 7 2 ++ List.replicate 8 1).getD k 0) 0 noBytes

/-- Every request with op 1 decodes to DECLEN of its field fb; for every byte DECLEN completes with OK, RVAL and RBUF
zero, and in RLEN the L for which the byte has exactly L - 1 leading one bits. States R97. -/
def Obligations.DeclenAnswersTheAnnouncedLength : Prop :=
  SelectedBy 1 (fun r => .declen (r.extractLsb' 8 8)) ∧
    ∀ (fb : Byte) (s : State), ∃ L, Announces fb.toNat L ∧ Answers (.declen fb) s 0 L 0 noBytes

/-- For every value, ENC, ENCLEN and DECLEN of the first byte ENC wrote all answer the same length, the least that
holds the value; and each length of 1 to 9 is the answer of ENCLEN for some value and of DECLEN for some byte, while
no other is. States R98. -/
def Obligations.LengthFunctionsAgree : Prop :=
  (∀ (a : Word) (s : State), ∃ t L, LeastLen a.toNat L ∧ exec (.enc a) s = .next t ∧ t.rlen.toNat = L ∧
      Answers (.enclen a) s 0 L 0 noBytes ∧ Answers (.declen (bufByte t.rbuf 0)) t 0 L 0 noBytes) ∧
    (∀ (s : State) (L : Nat), (1 ≤ L ∧ L ≤ 9) ↔ ∃ a, Answers (.enclen a) s 0 L 0 noBytes) ∧
    (∀ (s : State) (L : Nat), (1 ≤ L ∧ L ≤ 9) ↔ ∃ fb, Answers (.declen fb) s 0 L 0 noBytes)

/-- For each of the 256 bytes exactly one row of the mask and match table matches, and the row number plus one is the
length that the leading ones of the byte announce. From 30_encoding.md Part A. -/
def Obligations.EveryFirstByteMatchesExactlyOneRow : Prop :=
  ∀ b : Byte, ∃ k < 9, (∀ j < 9, rowMatches b (wireRows.getD j (0, 0)) = true ↔ j = k) ∧ Announces b.toNat (k + 1)

/-- For every choice of the five fields, the packed vector has op in REQ[3:0], n in REQ[7:4], fb in REQ[15:8], a in
REQ[79:16] and IBUF[i] in REQ[87+8i:80+8i]; and its byte 0 is {n, op}, byte 1 is fb, bytes 2 to 9 are the little-
endian bytes of a and bytes 10 to 18 are IBUF[0] to IBUF[8]. From 30_encoding.md Part B. -/
def Obligations.RequestVectorHoldsItsFields : Prop :=
  ∀ (op n : BitVec 4) (fb : Byte) (a : Word) (B : Buf), let r := packRequest op n fb a B
    r.extractLsb' 0 4 = op ∧ r.extractLsb' 4 4 = n ∧ r.extractLsb' 8 8 = fb ∧ r.extractLsb' 16 64 = a ∧
    (∀ i < 9, r.extractLsb' (80 + 8 * i) 8 = bufByte B i) ∧
    (r.extractLsb' 0 8).toNat = 16 * n.toNat + op.toNat ∧
    (∀ k, 2 ≤ k → k ≤ 9 → (r.extractLsb' (8 * k) 8).toNat = a.toNat / 2 ^ (8 * (k - 2)) % 256) ∧
    ∀ k, 10 ≤ k → k ≤ 18 → r.extractLsb' (8 * k) 8 = bufByte B (k - 10)

/-- For every length of 1 to 9, bit j of prefix(L) is one exactly for the top L - 1 bit positions, and prefix(L)
equals the match column of row L. States R64. -/
def Obligations.PrefixFunctionOfEachLength : Prop :=
  ∀ L ≤ 9, 1 ≤ L → (∀ j < 8, (prefixByte L).getLsbD j = decide (9 - L ≤ j)) ∧
    prefixByte L = (wireRows.getD (L - 1) (0, 0)).2

/-- Every request with op 2 decodes to ENC of its field a; for every operand ENC completes with OK and RVAL 0, RLEN is
the least length L, and RBUF is byte for byte the encoding of the case L selects (the value itself; prefix and
payload; 0xFE and seven bytes; 0xFF and eight bytes), 0x00 at index L and above. States R110, R112, R113, R114, R115,
R116. -/
def Obligations.EncAnswersTheCanonicalEncoding : Prop :=
  SelectedBy 2 (fun r => .enc (r.extractLsb' 16 64)) ∧
    ∀ (a : Word) (s : State), ∃ L, LeastLen a.toNat L ∧ Answers (.enc a) s 0 L 0 (layoutByte L a.toNat)

/-- encode is injective and its images are prefix-free: agreement of the result buffers on the first RLEN bytes of the
one already makes the operands equal. From 41_encode.md (laws of encode), 30_encoding.md Part A. -/
def Obligations.NoEncodingBeginsAnother : Prop :=
  ∀ (a b : Word) (s t u : State), exec (.enc a) s = .next t → exec (.enc b) s = .next u →
    (∀ i < t.rlen.toNat, bufByte t.rbuf i = bufByte u.rbuf i) → a = b

/-- Every request with op 3 decodes to DEC of its fields n and IBUF. n = 0 answers Truncated. With L the length
IBUF[0] announces: n < L answers Truncated; otherwise, with v the value the L bytes carry, DEC answers OK with RVAL =
v, RLEN = L and RBUF zero if L = 1 or v >= 2^(7(L-1)), and RedundantEncode if not. Errors leave all other registers
zero. States R135. -/
def Obligations.DecAnswersItsSlice : Prop :=
  SelectedBy 3 (fun r => .dec (r.extractLsb' 4 4) (bufOfFn fun i => r.extractLsb' (80 + 8 * i) 8)) ∧
    (∀ (ibuf : Buf) (s : State), Answers (.dec 0 ibuf) s 1 0 0 noBytes) ∧
    ∀ (n : BitVec 4) (ibuf : Buf) (s : State) (L : Nat), Announces (bufByte ibuf 0).toNat L →
      AnswersDecode (.dec n ibuf) s (L ≤ n.toNat) L (slicePayload L ibuf) (fun v => v)

/-- Every request with op 4 decodes to DECS of its fields n, fb and IBUF. With L the length fb announces: n < L - 1
answers Truncated; otherwise, with v the value of fb and the first L - 1 bytes of IBUF, DECS answers OK with RVAL = v,
RLEN = L and RBUF zero if v is canonical for L, and RedundantEncode if not. States R136. -/
def Obligations.DecsAnswersItsSplitInput : Prop :=
  SelectedBy 4 (fun r => .decs (r.extractLsb' 4 4) (r.extractLsb' 8 8) (bufOfFn fun i => r.extractLsb' (80 + 8 * i) 8)) ∧
    ∀ (n : BitVec 4) (fb : Byte) (ibuf : Buf) (s : State) (L : Nat), Announces fb.toNat L →
      AnswersDecode (.decs n fb ibuf) s (L - 1 ≤ n.toNat) L
        (payload L fb.toNat (followNumber (fun j => (bufByte ibuf j).toNat) (L - 1))) (fun v => v)

/-- Every request with op 5 decodes to DECP of its fields fb and a. With L the length fb announces and v the value of
fb and the low 8(L-1) bits of the word, DECP answers OK with RVAL = v, RLEN = L and RBUF zero if v is canonical for L,
and RedundantEncode if not. States R137. -/
def Obligations.DecpAnswersItsPackedInput : Prop :=
  SelectedBy 5 (fun r => .decp (r.extractLsb' 8 8) (r.extractLsb' 16 64)) ∧
    ∀ (fb : Byte) (w : Word) (s : State) (L : Nat), Announces fb.toNat L →
      AnswersUnpacked (.decp fb w) s L (payload L fb.toNat (w.toNat % 2 ^ (8 * (L - 1)))) (fun v => v)

/-- Two follow words that agree in their low 8(L-1) bits, L being the length the first byte announces, give the same
outcome of DECP, and of DECPI. States R138. -/
def Obligations.PackedHighBytesAreIgnored : Prop :=
  ∀ (fb : Byte) (w w' : Word) (s : State) (L : Nat), Announces fb.toNat L →
    w.toNat % 2 ^ (8 * (L - 1)) = w'.toNat % 2 ^ (8 * (L - 1)) →
    exec (.decp fb w) s = exec (.decp fb w') s ∧ exec (.decpi fb w) s = exec (.decpi fb w') s

/-- With L the announced length, two inputs that agree on the first L bytes (for the split forms: the first byte and
the first L - 1 follow bytes) and both supply at least that many give the same outcome of DEC and DECI, and of DECS
and DECSI. From 42_decode.md section 4, 20_memory.md section 4. -/
def Obligations.SurplusBytesAreIgnored : Prop :=
  ∀ (n n' : BitVec 4) (B B' : Buf) (s : State) (L : Nat),
    (Announces (bufByte B 0).toNat L → (∀ i < L, bufByte B i = bufByte B' i) → L ≤ n.toNat → L ≤ n'.toNat →
      exec (.dec n B) s = exec (.dec n' B') s ∧ exec (.deci n B) s = exec (.deci n' B') s) ∧
    ∀ fb : Byte, Announces fb.toNat L → (∀ j < L - 1, bufByte B j = bufByte B' j) → L - 1 ≤ n.toNat → L - 1 ≤ n'.toNat →
      exec (.decs n fb B) s = exec (.decs n' fb B') s ∧ exec (.decsi n fb B) s = exec (.decsi n' fb B') s

/-- For a slice that holds all L bytes its first byte announces, DEC of the slice, DECS of its first byte and follow
bytes, and DECP of its first byte and packed follow bytes have the same outcome; likewise DECI, DECSI and DECPI. From
42_decode.md section 6. -/
def Obligations.EntryPointsAgreeOnCompleteInputs : Prop :=
  ∀ (n n' : BitVec 4) (B B' : Buf) (w : Word) (s : State) (L : Nat), Announces (bufByte B 0).toNat L →
    L ≤ n.toNat → L - 1 ≤ n'.toNat → (∀ j < L - 1, bufByte B' j = bufByte B (j + 1)) →
    w.toNat % 2 ^ (8 * (L - 1)) = followNumber (fun j => (bufByte B (j + 1)).toNat) (L - 1) →
    exec (.dec n B) s = exec (.decs n' (bufByte B 0) B') s ∧ exec (.dec n B) s = exec (.decp (bufByte B 0) w) s ∧
    exec (.deci n B) s = exec (.decsi n' (bufByte B 0) B') s ∧ exec (.deci n B) s = exec (.decpi (bufByte B 0) w) s

/-- For every value v and state, ENC v completes, and DEC of its RBUF with any byte count of at least RLEN answers OK
with RVAL = v and the same RLEN. From 41_encode.md (laws of encode), 42_decode.md section 6. -/
def Obligations.DecodingAnEncodingGivesTheValueBack : Prop :=
  ∀ (a : Word) (s : State), ∃ t, exec (.enc a) s = .next t ∧
    ∀ n : BitVec 4, t.rlen.toNat ≤ n.toNat → Answers (.dec n t.rbuf) t 0 t.rlen.toNat a.toNat noBytes

/-- The other half of the bijection: whenever DEC ends with OK, ENC of the RVAL it wrote has the same RLEN, and its
RBUF agrees with the slice on those bytes. So DEC accepts the canonical encoding of a value only. From 42_decode.md
section 6, 42_decode.md section 3. -/
def Obligations.EncodingADecodedSliceGivesItsBytesBack : Prop :=
  ∀ (n : BitVec 4) (B : Buf) (s t : State), exec (.dec n B) s = .next t → t.rstat = 0 →
    ∃ u, exec (.enc t.rval) t = .next u ∧ u.rlen = t.rlen ∧ ∀ i < u.rlen.toNat, bufByte u.rbuf i = bufByte B i

/-- For every value, DEC of what ENC wrote with any byte count below RLEN answers Truncated with all other registers
zero. From 42_decode.md section 6. -/
def Obligations.EveryStrictPrefixIsTruncated : Prop :=
  ∀ (a : Word) (s t : State) (k : BitVec 4), exec (.enc a) s = .next t → k.toNat < t.rlen.toNat →
    Answers (.dec k t.rbuf) t 1 0 0 noBytes

/-- For a slice that holds all L bytes its first byte announces and carries value v: DEC answers OK with v if and only
if ENCLEN of v answers L. From 42_decode.md section 3. -/
def Obligations.DecSucceedsExactlyAtTheEncodedLength : Prop :=
  ∀ (n : BitVec 4) (B : Buf) (s : State) (L : Nat), Announces (bufByte B 0).toNat L → L ≤ n.toNat →
    (Answers (.dec n B) s 0 L (slicePayload L B) noBytes ↔
      Answers (.enclen (BitVec.ofNat 64 (slicePayload L B))) s 0 L 0 noBytes)

/-- Whenever DEC ends with OK, RLEN is 1 to 9 and RVAL lies in the value range of that length class. From 42_decode.md
section 3. -/
def Obligations.DecodedValueFitsItsLength : Prop :=
  ∀ (n : BitVec 4) (B : Buf) (s t : State), exec (.dec n B) s = .next t → t.rstat = 0 →
    LeastLen t.rval.toNat t.rlen.toNat

/-- Every request with op 6 decodes to ZZENC of its field a; where the zigzag unit exists ZZENC completes with OK,
RLEN and RBUF zero and RVAL the image of the signed operand by value. From 43_zigzag_signed.md sections 1 and 2. -/
def Obligations.ZzencAnswersTheZigzagImage : Prop :=
  SelectedBy 6 (fun r => .zzenc (r.extractLsb' 16 64)) ∧
    ∀ (a : Word) (s : State), s.config.hasSigned = true → Answers (.zzenc a) s 0 0 (zigzagIn a.toInt) noBytes

/-- Every request with op 7 decodes to ZZDEC of its field a; where the zigzag unit exists ZZDEC completes with OK,
RLEN and RBUF zero and RVAL the two's-complement pattern of the signed value. From 43_zigzag_signed.md sections 1 and
2. -/
def Obligations.ZzdecAnswersTheSignedValue : Prop :=
  SelectedBy 7 (fun r => .zzdec (r.extractLsb' 16 64)) ∧
    ∀ (a : Word) (s : State), s.config.hasSigned = true → Answers (.zzdec a) s 0 0 (pattern (zigzagOut a.toNat)) noBytes

/-- Where the zigzag unit exists, ZZENC of any word followed by ZZDEC of its RVAL gives the word back, and the other
way round. From 43_zigzag_signed.md section 3. -/
def Obligations.ZigzagIsABijection : Prop :=
  ∀ (a : Word) (s : State), s.config.hasSigned = true →
    (∃ t, exec (.zzenc a) s = .next t ∧ Answers (.zzdec t.rval) t 0 0 a.toNat noBytes) ∧
    ∃ t, exec (.zzdec a) s = .next t ∧ Answers (.zzenc t.rval) t 0 0 a.toNat noBytes

/-- Every request with op 8 decodes to ENCI of its field a; where the zigzag unit exists ENCI completes, with the very
outcome of ENC on the value that ZZENC of the operand writes, and with status OK. States R159. -/
def Obligations.EnciIsEncOfTheZigzagImage : Prop :=
  SelectedBy 8 (fun r => .enci (r.extractLsb' 16 64)) ∧
    ∀ (a : Word) (s : State), s.config.hasSigned = true →
      ∃ t u, exec (.zzenc a) s = .next t ∧ exec (.enc t.rval) s = .next u ∧ exec (.enci a) s = .next u ∧
        u.rstat.toNat = 0

/-- Where the zigzag unit exists, for every signed operand ENCI completes with OK, RVAL 0, the least length of the
zigzag image and its encoding byte for byte; and for L of 1 to 8 that length is at most L exactly when the signed
value lies in the range. From 43_zigzag_signed.md section 3. -/
def Obligations.SignedLengthClasses : Prop :=
  ∀ (a : Word) (s : State), s.config.hasSigned = true →
    ∃ k, LeastLen (zigzagIn a.toInt) k ∧ Answers (.enci a) s 0 k 0 (layoutByte k (zigzagIn a.toInt)) ∧
      ∀ L, 1 ≤ L → L ≤ 8 → (k ≤ L ↔ -(2 ^ (7 * L - 1) : Int) ≤ a.toInt ∧ a.toInt < 2 ^ (7 * L - 1))

/-- Where the zigzag unit exists, each signed decode answers Truncated, RedundantEncode or OK under exactly the
conditions of its unsigned form (canonicity judged on the unsigned value), and on OK RVAL is the two's-complement
pattern of the signed value, RLEN the length and RBUF zero. An empty slice is Truncated for DECI. From
43_zigzag_signed.md section 2, 42_decode.md section 5. -/
def Obligations.SignedDecodesAnswerTheSignedValue : Prop :=
  ∀ s : State, s.config.hasSigned = true →
    (∀ B : Buf, Answers (.deci 0 B) s 1 0 0 noBytes) ∧
    (∀ (n : BitVec 4) (B : Buf) (L : Nat), Announces (bufByte B 0).toNat L →
      AnswersDecode (.deci n B) s (L ≤ n.toNat) L (slicePayload L B) (fun u => pattern (zigzagOut u))) ∧
    (∀ (n : BitVec 4) (fb : Byte) (B : Buf) (L : Nat), Announces fb.toNat L →
      AnswersDecode (.decsi n fb B) s (L - 1 ≤ n.toNat) L
        (payload L fb.toNat (followNumber (fun j => (bufByte B j).toNat) (L - 1))) (fun u => pattern (zigzagOut u))) ∧
    ∀ (fb : Byte) (w : Word) (L : Nat), Announces fb.toNat L →
      AnswersUnpacked (.decpi fb w) s L (payload L fb.toNat (w.toNat % 2 ^ (8 * (L - 1))))
        (fun u => pattern (zigzagOut u))

/-- Requests with op 9, 10 and 11 decode to DECI, DECSI and DECPI with the fields of DEC, DECS and DECP. Where the
zigzag unit exists each completes with the RSTAT, RLEN and RBUF of its unsigned form, and with RVAL (u >> 1) ^ -(u &
1) of the unsigned value u if that form succeeded and 0 if it failed. States R160, R161, R162. -/
def Obligations.SignedDecodesFollowTheUnsignedOnes : Prop :=
  SelectedBy 9 (fun r => .deci (r.extractLsb' 4 4) (bufOfFn fun i => r.extractLsb' (80 + 8 * i) 8)) ∧
    SelectedBy 10 (fun r => .decsi (r.extractLsb' 4 4) (r.extractLsb' 8 8) (bufOfFn fun i => r.extractLsb' (80 + 8 * i) 8)) ∧ SelectedBy 11 (fun r => .decpi (r.extractLsb' 8 8) (r.extractLsb' 16 64)) ∧
    ∀ s : State, s.config.hasSigned = true → ∀ i j : Instr,
      ((∃ n B, i = .dec n B ∧ j = .deci n B) ∨ (∃ n fb B, i = .decs n fb B ∧ j = .decsi n fb B) ∨
        ∃ fb w, i = .decp fb w ∧ j = .decpi fb w) →
      ∃ t u, exec i s = .next t ∧ exec j s = .next u ∧ u.rstat = t.rstat ∧ u.rlen = t.rlen ∧ u.rbuf = t.rbuf ∧
        (t.rstat.toNat = 0 → u.rval = (t.rval >>> 1) ^^^ -(t.rval &&& 1)) ∧ (t.rstat.toNat ≠ 0 → u.rval.toNat = 0)

/-- Where the zigzag unit exists, for every operand ENCI completes, and DECI of its RBUF with any byte count of at
least RLEN answers OK with RVAL the operand and the same RLEN. From 43_zigzag_signed.md section 2, 95_test_vectors.md
section 1. -/
def Obligations.SignedRoundTrip : Prop :=
  ∀ (a : Word) (s : State), s.config.hasSigned = true → ∃ t, exec (.enci a) s = .next t ∧
    ∀ n : BitVec 4, t.rlen.toNat ≤ n.toNat → Answers (.deci n t.rbuf) t 0 t.rlen.toNat a.toNat noBytes

/-- Where the zigzag unit exists, the host sequence ZZENC then ENCLEN of its RVAL answers OK with the least length of
the zigzag image in RLEN, which is the RLEN that ENCI of the same operand writes. States R163. -/
def Obligations.SignedEncodedLengthIsReadTwoWays : Prop :=
  ∀ (a : Word) (s : State), s.config.hasSigned = true →
    ∃ t u, hostEncleni a s = some t ∧ exec (.enci a) s = .next u ∧ t.rlen = u.rlen ∧ t.rstat.toNat = 0 ∧
      LeastLen (zigzagEncode a).toNat t.rlen.toNat

/-- RESERVED_12 to RESERVED_15 answer status 3 with RLEN, RVAL and RBUF zero in every state and either build. From
30_encoding.md Part B (reserved operation codes), 60_exceptions.md section 1. -/
def Obligations.ReservedCodesAnswerIllegalOp : Prop :=
  ∀ (s : State), ∀ i ∈ [Instr.reserved12, .reserved13, .reserved14, .reserved15], Answers i s 3 0 0 noBytes

/-- For every request vector with op of 12 to 15, or of 6 to 11 where HAS_SIGNED is false, the request decodes to an
instruction that completes with status 3 and all other registers zero. States R180. -/
def Obligations.UnselectedRequestAnswersIllegalOp : Prop :=
  ∀ (r : BitVec 152) (s : State),
    12 ≤ r.toNat % 16 ∨ (6 ≤ r.toNat % 16 ∧ r.toNat % 16 ≤ 11 ∧ s.config.hasSigned = false) →
    ∃ i, decode (.request r) = .ok i ∧ Answers i s 3 0 0 noBytes

/-- Where HAS_SIGNED is false every instruction of codes 6 to 11 answers status 3 with all other registers zero; and
every other instruction that a request carries gives the same response in both builds. States R166. -/
def Obligations.WithoutTheZigzagUnit : Prop :=
  (∀ (i : Instr) (s : State), i.isSigned = true → s.config.hasSigned = false → Answers i s 3 0 0 noBytes) ∧
    ∀ (i : Instr) (r : BitVec 152) (s : State) (c : Config), encode i = .request r → i.isSigned = false →
      ∃ t u, exec i s = .next t ∧ exec i { s with config := c } = .next u ∧ SameResponse t u

/-- For every instruction and state, the status is 3 if and only if the code is reserved, or is a signed operation in
a build without the zigzag unit. (The wire classes select: log entry 4.) From 60_exceptions.md section 1,
30_encoding.md Part B. -/
def Obligations.IllegalOpExactlyWhenNothingIsSelected : Prop :=
  ∀ (i : Instr) (s : State), EndsWith i s 3 ↔ i.selects s.config = false

/-- Every instruction that a request carries ends only with a status of its row of the table; and each yes is
attained: in every state there are operands for which DEC, DECS (and DECI, DECSI with the zigzag unit) end with OK,
with Truncated and with RedundantEncode, and DECP (DECPI) with OK and with RedundantEncode. States R179. -/
def Obligations.StatusesOfEachOperation : Prop :=
  (∀ (i : Instr) (r : BitVec 152) (s : State), encode i = .request r →
      ∃ k ∈ statusColumn s.config.hasSigned i, EndsWith i s k) ∧
    ∀ s : State,
      (∀ k ∈ [0, 1, 2], ∃ n B, EndsWith (.dec n B) s k) ∧ (∀ k ∈ [0, 1, 2], ∃ n fb B, EndsWith (.decs n fb B) s k) ∧
      (∀ k ∈ [0, 2], ∃ fb w, EndsWith (.decp fb w) s k) ∧
      (s.config.hasSigned = true →
        (∀ k ∈ [0, 1, 2], ∃ n B, EndsWith (.deci n B) s k) ∧ (∀ k ∈ [0, 1, 2], ∃ n fb B, EndsWith (.decsi n fb B) s k) ∧
        ∀ k ∈ [0, 2], ∃ fb w, EndsWith (.decpi fb w) s k)

/-- For every instruction and state, if the status after it is not OK then it is one of the three codes and RLEN, RVAL
and every RBUF byte are zero: nothing of a rejected value is delivered. From 60_exceptions.md section 2, 42_decode.md
section 6. -/
def Obligations.FailuresCarryNothingButTheirKind : Prop :=
  ∀ (i : Instr) (s t : State), exec i s = .next t → t.rstat.toNat ≠ 0 →
    t.rstat.toNat ≤ 3 ∧ Shows t t.rstat.toNat 0 0 noBytes

/-- A wire encoding handed to the block completes as its exact slice would: class 1 always with its value; class L of
2 to 7 with x + follow 2^(8-L), classes 8 and 9 with the follow number, each with RLEN = L if the value is at least
2^(7(L-1)) and RedundantEncode if not. That an encoding can be presented on its own is the model's choice (log entry
4). From 30_encoding.md Part A, 42_decode.md sections 2 and 3. -/
def Obligations.WireClassesAnswerTheirValue : Prop :=
  ∀ s : State,
    (∀ x, Answers (.wireL1 x) s 0 1 x.toNat noBytes) ∧
    (∀ x f, AnswersUnpacked (.wireL2 x f) s 2 (x.toNat + f.toNat * 2 ^ 6) (fun v => v)) ∧
    (∀ x f, AnswersUnpacked (.wireL3 x f) s 3 (x.toNat + f.toNat * 2 ^ 5) (fun v => v)) ∧
    (∀ x f, AnswersUnpacked (.wireL4 x f) s 4 (x.toNat + f.toNat * 2 ^ 4) (fun v => v)) ∧
    (∀ x f, AnswersUnpacked (.wireL5 x f) s 5 (x.toNat + f.toNat * 2 ^ 3) (fun v => v)) ∧
    (∀ x f, AnswersUnpacked (.wireL6 x f) s 6 (x.toNat + f.toNat * 2 ^ 2) (fun v => v)) ∧
    (∀ x f, AnswersUnpacked (.wireL7 x f) s 7 (x.toNat + f.toNat * 2 ^ 1) (fun v => v)) ∧
    (∀ f, AnswersUnpacked (.wireL8 f) s 8 f.toNat (fun v => v)) ∧
    ∀ f, AnswersUnpacked (.wireL9 f) s 9 f.toNat (fun v => v)

/-- For every wire-class instruction, exec of it is exec of the DEC request the assembler writes for the bytes of its
encoding: the wire classes add no behaviour to the block (log entry 4). From 00_scope.md section 5, 42_decode.md
section 5. -/
def Obligations.WireClassAnswersAsDecOfItsBytes : Prop :=
  ∀ (i : Instr) (bytes : List Byte) (s : State), encode i = .wire bytes → exec i s = exec (asmDec bytes) s

/-- A wire-class instruction ends with OK if and only if its value is in the range of its length class; and no well-
formed instruction of a build ends with IllegalOp in it. The wire classes as instructions are the model's choice (log
entry 4). From 30_encoding.md Part A (rejection of byte sequences). -/
def Obligations.WellFormedWireClassSucceeds : Prop :=
  (∀ (i : Instr) (bytes : List Byte) (s : State), encode i = .wire bytes → (EndsWith i s 0 ↔ i.wireCanonical = true)) ∧
    ∀ (i : Instr) (s : State), i.wellFormed s.config = true → ¬ EndsWith i s 3

/-- For each of the 25 constructors and every value of its operands, decode of encode of the instruction is the
instruction: no bit of an operand is dropped or moved. It holds of well-formed and ill-formed instructions alike. The
wire classes as instructions, and zero in the unused request fields, are the model's choice (log entries 4 and 12).
From 30_encoding.md Part A, 30_encoding.md Part B. -/
def Obligations.DecodeAfterEncodeIsTheInstruction : Prop :=
  ∀ i : Instr, decode (encode i) = .ok i

/-- For every wire-class instruction and every byte sequence after its bytes, the wire decoder reads the instruction
and leaves that sequence. The wire classes as instructions are the model's choice (log entry 4). From 30_encoding.md
Part A (how a decoder tells the length). -/
def Obligations.WireStreamIsSelfDelimiting : Prop :=
  ∀ (i : Instr) (bytes rest : List Byte), encode i = .wire bytes → decodeWire (bytes ++ rest) = .ok (i, rest)

/-- Whenever the wire decoder reads an instruction from a byte sequence, that sequence is the bytes of the
instruction's encoding followed by the bytes it leaves: no two encodings share an instruction and no byte is lost. The
wire classes as instructions are the model's choice (log entry 4). From 30_encoding.md Part A. -/
def Obligations.WireDecodingLosesNothing : Prop :=
  ∀ (bytes rest : List Byte) (i : Instr), decodeWire bytes = .ok (i, rest) →
    ∃ front, encode i = .wire front ∧ bytes = front ++ rest

/-- The vectors of ENC 300, DECP 0xAC 4, ENCI -65, the reserved code 12 and the byte sequences 80 02 and 7F decode to
the instructions they stand for (the byte sequences as wire packets: log entry 4). From 95_test_vectors.md section
2.1, 30_encoding.md Part B. -/
def Obligations.SampleWordsDecodeToTheirInstructions : Prop :=
  decode (.request 0x012C0002) = .ok (.enc 300) ∧
    decode (.request 0x4AC05) = .ok (.decp 0xAC 4) ∧
    decode (.request 0xFFFFFFFFFFFFFFBF0008) = .ok (.enci (-65)) ∧
    decode (.request 0x0C) = .ok .reserved12 ∧
    decode (.wire [0x80, 0x02]) = .ok (.wireL2 0 2) ∧
    decode (.wire [0x7F]) = .ok (.wireL1 0x7F)

/-- From every state whose registers are legal, whatever the build and the script, a step gives a state whose
registers are legal: RSTAT at most 3, RLEN at most 9, zeros after an error, zeros in RBUF at RLEN and above, and a
nonzero RBUF is the canonical encoding of one value with RVAL 0. The step ranges over the model's script of requests,
wire packets and resets (log entries 1, 2, 4 and 7). From 10_state.md section 2, 60_exceptions.md section 2. -/
def Obligations.EveryStepKeepsTheRegistersLegal : Prop :=
  ∀ s t : State, s.Legal → step s = .next t → t.Legal

/-- State.resetOf of every configuration, State.reset among them, is legal. From 10_state.md section 4. -/
def Obligations.ResetRegistersAreLegal : Prop :=
  (∀ c : Config, (State.resetOf c).Legal) ∧ State.reset.Legal

/-- Whenever the stream-read sequence is answered, the bytes it consumed are as many as the first of them announces,
they stand at the front of the stream, and the status is OK or RedundantEncode; and it goes unanswered only when the
stream is shorter than that. From 60_exceptions.md section 8, 30_encoding.md Part C. -/
def Obligations.StreamReadNeverMeetsTruncated : Prop :=
  (∀ (stream rest : List Byte) (s t : State), hostReadOne stream s = some (t, rest) →
      (t.rstat.toNat = 0 ∨ t.rstat.toNat = 2) ∧
      ∃ front, stream = front ++ rest ∧ Announces (front.headD 0).toNat front.length) ∧
    ∀ (stream : List Byte) (s : State) (L : Nat), hostReadOne stream s = none → Announces (stream.headD 0).toNat L →
      stream.length < L

/-- For every value and every continuation of the stream, the write sequence (ENC) yields bytes such that the read
sequence (DECLEN, DECS) on those bytes followed by the continuation succeeds with the value, its length in RLEN, and
leaves exactly the continuation. From 60_exceptions.md section 8, 95_test_vectors.md section 1. -/
def Obligations.StreamWriteThenReadGivesTheValueBack : Prop :=
  ∀ (a : Word) (s : State) (rest : List Byte), ∃ t bytes u,
    hostWriteOne a s = some (t, bytes) ∧ hostReadOne (bytes ++ rest) t = some (u, rest) ∧
    Shows u 0 bytes.length a.toNat noBytes

/-- For every slice of at most nine bytes, the host sequence DEC then ENC is answered; if DEC of the slice succeeds
with length L, the result buffer holds the first L bytes of the slice and RLEN = L; if it fails, the state shows that
failure. From 30_encoding.md Part C, 10_state.md section 2. -/
def Obligations.ContainerFromASliceHoldsItsEncoding : Prop :=
  ∀ (bytes : List Byte) (s t : State), bytes.length ≤ 9 → exec (asmDec bytes) s = .next t →
    ∃ u, hostContainer bytes s = some u ∧
      (t.rstat.toNat = 0 → u.rstat.toNat = 0 ∧ u.rlen = t.rlen ∧ resultBytes u = bytes.take t.rlen.toNat) ∧
      (t.rstat.toNat ≠ 0 → u = t)

/-- Where the zigzag unit exists: for every value and every continuation of the stream, the signed write sequence
(ENCI) yields bytes such that the signed read sequence (DECLEN, DECSI) on them followed by the continuation succeeds
with the value, its length in RLEN, and leaves exactly the continuation; and on every stream the signed read goes
unanswered exactly when the unsigned read does, otherwise leaves the same rest with the same RSTAT, RLEN and RBUF, and
after OK holds zigzag_decode of the unsigned value in RVAL. From 60_exceptions.md section 8, 43_zigzag_signed.md
section 2. -/
def Obligations.SignedStreamFollowsTheUnsignedOne : Prop :=
  ∀ s : State, s.config.hasSigned = true →
    (∀ (a : Word) (rest : List Byte), ∃ t bytes u,
      hostWriteOneSigned a s = some (t, bytes) ∧ hostReadOneSigned (bytes ++ rest) t = some (u, rest) ∧
      Shows u 0 bytes.length a.toNat noBytes) ∧
    ∀ stream : List Byte, (hostReadOne stream s = none ∧ hostReadOneSigned stream s = none) ∨
      ∃ t u rest, hostReadOne stream s = some (t, rest) ∧ hostReadOneSigned stream s = some (u, rest) ∧
        u.rstat = t.rstat ∧ u.rlen = t.rlen ∧ u.rbuf = t.rbuf ∧
        (t.rstat.toNat = 0 → u.rval.toNat = pattern (zigzagOut t.rval.toNat))

/-- That a host issues these sequences in a build without the zigzag unit, and ends them at the first error without
reading RVAL, RLEN or RBUF, is the model's choice (log entry 17). Where HAS_SIGNED is false: the signed encoded length
ends with status 3 and zeros; the signed write ends so and writes no byte; and on every stream on which the unsigned
read is answered, the signed read ends so and leaves the same rest. From 43_zigzag_signed.md section 4,
60_exceptions.md section 2. -/
def Obligations.SignedHostSequencesWithoutTheUnit : Prop :=
  ∀ s : State, s.config.hasSigned = false →
    (∀ v : Word, ∃ t, hostEncleni v s = some t ∧ Shows t 3 0 0 noBytes) ∧
    (∀ v : Word, ∃ t, hostWriteOneSigned v s = some (t, []) ∧ Shows t 3 0 0 noBytes) ∧
    ∀ (stream rest : List Byte) (t : State), hostReadOne stream s = some (t, rest) →
      ∃ u, hostReadOneSigned stream s = some (u, rest) ∧ Shows u 3 0 0 noBytes
end

