-- ==== Sys2Proof/Laws/Bytes.lean ====
section
/-! SUPPORT. What the byte-sequence and buffer operations do (00_scope.md R10). -/

namespace Sys2Proof.Machine

open Sys2Proof

/-- Reading a built buffer gives the byte it was built from. -/
@[simp] theorem bufByte_bufOfFn (f : Nat → Byte) {i : Nat} (h : i < 9) : bufByte (bufOfFn f) i = f i := by
  simp only [bufByte, h, dite_true, bufOfFn]
  interval_cases i <;> rfl

/-- No byte stands outside the indices 0 to 8. -/
@[simp] theorem bufByte_of_le (B : Buf) {i : Nat} (h : 9 ≤ i) : bufByte B i = 0 := by
  simp [bufByte, Nat.not_lt.mpr h]

@[simp] theorem bufByte_zeroBuf (i : Nat) : bufByte zeroBuf i = 0 := by
  rcases Nat.lt_or_ge i 9 with h | h
  · exact bufByte_bufOfFn _ h
  · exact bufByte_of_le _ h

/-- A stored byte sequence reads back byte by byte, with zeros above it. -/
theorem bufByte_bufOfList (s : List Byte) {i : Nat} (h : i < 9) : bufByte (bufOfList s) i = s.getD i 0 :=
  bufByte_bufOfFn _ h

/-- Two buffers with the same nine bytes are the same buffer. -/
theorem buf_ext {A B : Buf} (h : ∀ i < 9, bufByte A i = bufByte B i) : A = B := by
  refine Vector.ext fun i hi => ?_
  have := h i hi
  simpa [bufByte, hi] using this

/-- A buffer is the one built from its own bytes. -/
theorem bufOfFn_bufByte (B : Buf) : bufOfFn (bufByte B) = B :=
  buf_ext fun _ hi => bufByte_bufOfFn _ hi

@[simp] theorem leBytes_length (k w : Nat) : (leBytes k w).length = k := by simp [leBytes]

theorem leBytes_getD {k w i : Nat} (h : i < k) : (leBytes k w).getD i 0 = BitVec.ofNat 8 (w / 2 ^ (8 * i)) := by
  simp [leBytes, h, Nat.shiftRight_eq_div_pow]

@[simp] theorem bufSlice_length (B : Buf) (i k : Nat) : (bufSlice B i k).length = k := by simp [bufSlice]

/-- `k` bytes form a number below `2^(8k)`. -/
theorem leNat_lt (s : List Byte) : leNat s < 2 ^ (8 * s.length) := by
  induction s with
  | nil => simp [leNat]
  | cons b bs ih =>
    have hb := b.isLt
    simp only [leNat, List.length_cons]
    have : 2 ^ (8 * (bs.length + 1)) = 256 * 2 ^ (8 * bs.length) := by
      rw [Nat.mul_add, Nat.pow_add]; ring
    omega

/-- `LE` of a list is the sum R10 states. -/
theorem leNat_eq_followNumber (s : List Byte) : leNat s = followNumber (fun j => (s.getD j 0).toNat) s.length := by
  induction s with
  | nil => simp [leNat, followNumber]
  | cons b bs ih =>
    simp only [leNat, List.length_cons, followNumber] at ih ⊢
    rw [Finset.sum_range_succ', ih, Finset.mul_sum]
    simp only [List.getD_cons_zero, List.getD_cons_succ, Nat.mul_zero, Nat.pow_zero, Nat.mul_one]
    rw [Nat.add_comm]
    congr 1
    refine Finset.sum_congr rfl fun j _ => ?_
    rw [Nat.mul_add, Nat.pow_add]
    ring

/-- Taking a number's bytes apart and putting them together gives the number back. -/
theorem leNat_leBytes (k : Nat) : ∀ w, w < 2 ^ (8 * k) → leNat (leBytes k w) = w := by
  induction k with
  | zero => intro w h; simp [leBytes, leNat]; omega
  | succ k ih =>
    intro w h
    have hk : 2 ^ (8 * (k + 1)) = 256 * 2 ^ (8 * k) := by rw [Nat.mul_add, Nat.pow_add]; ring
    have hw : w / 256 < 2 ^ (8 * k) := by omega
    have : leBytes (k + 1) w = BitVec.ofNat 8 w :: leBytes k (w / 256) := by
      simp only [leBytes, List.range_succ_eq_map, List.map_cons, List.map_map]
      refine congrArg₂ _ (by simp) (List.map_congr_left fun j _ => ?_)
      simp only [Function.comp, Nat.shiftRight_eq_div_pow, Nat.succ_eq_add_one]
      rw [Nat.mul_add, Nat.pow_add, Nat.mul_comm (2 ^ (8 * j)), ← Nat.div_div_eq_div_mul]
    rw [this, leNat, ih _ hw]
    simp
    omega

/-- A read of `k ≤ 8` bytes gives the number R10 states. -/
theorem memRead_toNat (B : Buf) (i : Nat) {k : Nat} (h : k ≤ 8) :
    (memRead B i k).toNat = followNumber (fun j => (bufByte B (i + j)).toNat) k := by
  have hl := leNat_lt (bufSlice B i k)
  rw [bufSlice_length] at hl
  have h64 : 2 ^ (8 * k) ≤ 2 ^ 64 := Nat.pow_le_pow_right (by decide) (by omega)
  rw [memRead, packLe, BitVec.toNat_ofNat, Nat.mod_eq_of_lt (Nat.lt_of_lt_of_le hl h64),
    leNat_eq_followNumber, bufSlice_length]
  refine Finset.sum_congr rfl fun j hj => ?_
  have : j < k := Finset.mem_range.mp hj
  simp [bufSlice, this]

/-- The packed form keeps the low `8(L-1)` bits of the word (42_decode.md R138). -/
theorem packedFollow_toNat (w : Word) (L : Nat) : (packedFollow w L).toNat = w.toNat % 2 ^ (8 * (L - 1)) := by
  have hw := w.isLt
  rw [packedFollow, BitVec.toNat_and, BitVec.toNat_ofNat]
  rcases Nat.lt_or_ge (8 * (L - 1)) 64 with h | h
  · have : 2 ^ (8 * (L - 1)) < 2 ^ 64 := Nat.pow_lt_pow_right (by decide) h
    rw [Nat.mod_eq_of_lt (by omega), Nat.and_two_pow_sub_one_eq_mod]
  · obtain ⟨k, hk⟩ := Nat.exists_eq_add_of_le h
    have hp : 2 ^ (8 * (L - 1)) = 2 ^ 64 * 2 ^ k := by rw [hk, Nat.pow_add]
    have hk1 : 1 ≤ 2 ^ k := Nat.one_le_two_pow
    have : (2 ^ (8 * (L - 1)) - 1) % 2 ^ 64 = 2 ^ 64 - 1 := by
      rw [hp]
      obtain ⟨m, hm⟩ := Nat.exists_eq_add_of_le hk1
      rw [hm, Nat.mul_add, Nat.mul_one, Nat.add_comm, Nat.add_sub_assoc (by decide), Nat.mul_add_mod]
      decide
    rw [this, Nat.and_two_pow_sub_one_eq_mod, Nat.mod_eq_of_lt hw, Nat.mod_eq_of_lt]
    exact Nat.lt_of_lt_of_le hw (Nat.pow_le_pow_right (by decide) h)

end Sys2Proof.Machine
end

