-- ==== Sys2Proof/Laws/Codec.lean ====
section
/-! SUPPORT. One lemma per codec function that says what it computes, by value, in the terms of Safety.lean. -/

namespace Sys2Proof.Machine

open Sys2Proof

/-! ### The length classifier -/

/-- A first byte announces one length only. -/
theorem announces_unique {b L L' : Nat} (h : Announces b L) (h' : Announces b L') : L = L' := by
  obtain ⟨h1, h2, h3, h4⟩ := h
  obtain ⟨h1', h2', h3', h4'⟩ := h'
  interval_cases L <;> interval_cases L' <;> simp_all <;> omega

/-- `decoded_len` of a byte is the length it announces (40_length.md R94). -/
theorem decodedLen_announces (b : Byte) : Announces b.toNat (decodedLen b) := by
  revert b
  decide

/-- `decoded_len` is determined by what the byte announces. -/
theorem decodedLen_eq {b : Byte} {L : Nat} (h : Announces b.toNat L) : decodedLen b = L :=
  announces_unique (decodedLen_announces b) h

/-- The zero run of a value below `2^k` leaves exactly its significant bits (40_length.md R90). -/
theorem zeroRun_spec (v : Word) (k : Nat) (h : v.toNat < 2 ^ k) :
    zeroRun v k ≤ k ∧ v.toNat < 2 ^ (k - zeroRun v k) ∧ (zeroRun v k < k → 2 ^ (k - zeroRun v k - 1) ≤ v.toNat) := by
  induction k with
  | zero => simpa [zeroRun] using h
  | succ k ih =>
    have hbit : v.getLsbD k = decide (2 ^ k ≤ v.toNat) := by
      rw [BitVec.getLsbD, Nat.testBit_eq_decide_div_mod_eq]
      congr 1
      rw [Nat.pow_succ] at h
      rcases Nat.lt_or_ge v.toNat (2 ^ k) with hlt | hge
      · simp [Nat.div_eq_of_lt hlt, Nat.not_le.mpr hlt]
      · have : v.toNat / 2 ^ k = 1 := by
          refine Nat.div_eq_of_lt_le (by omega) (by omega)
        simp [this, hge]
    rw [zeroRun, hbit]
    by_cases hge : 2 ^ k ≤ v.toNat
    · simp [hge, h]
    · obtain ⟨h1, h2, h3⟩ := ih (Nat.lt_of_not_le hge)
      simp only [hge, decide_false, Bool.false_eq_true, if_false]
      rw [Nat.add_comm 1, Nat.add_sub_add_right]
      exact ⟨by omega, h2, fun hlt => h3 (by omega)⟩

/-- A value of `s` significant bits has the length `lenOfBits s` (40_length.md R92). -/
theorem lenOfBits_least {v s : Nat} (hs : s ≤ 64) (h : v < 2 ^ s) (hl : 1 ≤ s → 2 ^ (s - 1) ≤ v) :
    LeastLen v (lenOfBits s) := by
  have up {k : Nat} (hk : s ≤ k) : v < 2 ^ k := Nat.lt_of_lt_of_le h (Nat.pow_le_pow_right (by decide) hk)
  have low {k : Nat} (hk : k + 1 ≤ s) : 2 ^ k ≤ v :=
    Nat.le_trans (Nat.pow_le_pow_right (by decide) (by omega)) (hl (by omega))
  unfold lenOfBits
  split
  · exact ⟨by omega, by omega, fun _ => up (by omega), fun _ => by omega⟩
  · split
    · exact ⟨by omega, by omega, fun _ => up (by omega), fun _ => low (by omega)⟩
    · exact ⟨by omega, by omega, fun _ => by omega, fun _ => low (by omega)⟩

/-- `encoded_len` is the least length (40_length.md R92). -/
theorem encodedLen_least (v : Word) : LeastLen v.toNat (encodedLen v) := by
  obtain ⟨h1, h2, h3⟩ := zeroRun_spec v 64 v.isLt
  refine lenOfBits_least (Nat.sub_le _ _) h2 fun hs => ?_
  exact h3 (by simp only [clz64] at hs; omega)

/-- A value has one least length only. -/
theorem leastLen_unique {v L L' : Nat} (h : LeastLen v L) (h' : LeastLen v L') : L = L' := by
  obtain ⟨h1, h2, h3, h4⟩ := h
  obtain ⟨h1', h2', h3', h4'⟩ := h'
  interval_cases L <;> interval_cases L' <;> simp_all <;> omega

/-! ### Packing and unpacking -/

/-- `unpack` gives the payload (42_decode.md R126, R127). -/
theorem unpack_toNat {L : Nat} (h1 : 1 ≤ L) (b : Byte) (F : Word) (hF : L ≤ 7 → F.toNat < 2 ^ (8 * (L - 1))) :
    (unpack L b F).toNat = payload L b.toNat F.toNat := by
  unfold unpack payload
  split
  next h7 =>
    have hF := hF h7
    have hb := b.isLt
    have hlow : (b <<< L).toNat < 2 ^ 8 := (b <<< L).isLt
    have hbig : F.toNat <<< 8 % 2 ^ 64 = F.toNat <<< 8 := by
      apply Nat.mod_eq_of_lt
      rw [Nat.shiftLeft_eq]
      have : 2 ^ (8 * (L - 1)) ≤ 2 ^ 48 := Nat.pow_le_pow_right (by decide) (by omega)
      omega
    simp only [BitVec.toNat_ushiftRight, BitVec.toNat_or, BitVec.toNat_shiftLeft, BitVec.toNat_setWidth, hbig]
    rw [BitVec.toNat_shiftLeft] at hlow
    rw [Nat.mod_eq_of_lt (b := 2 ^ 64) (by omega), ← Nat.shiftLeft_add_eq_or_of_lt hlow, Nat.shiftRight_eq_div_pow,
      Nat.shiftLeft_eq, Nat.shiftLeft_eq]
    interval_cases L <;> omega
  next => rfl

/-- The validator's verdict (42_decode.md R128). -/
theorem canonOk_iff (L : Nat) (v : Word) : canonOk L v = true ↔ Canonical L v.toNat := by
  simp [canonOk, Canonical]

/-- What the shared end of every decode does, by value (42_decode.md R132). -/
theorem finishDecode_eq {L : Nat} (h1 : 1 ≤ L) (b : Byte) (F : Word) (hF : L ≤ 7 → F.toNat < 2 ^ (8 * (L - 1))) :
    finishDecode L b F =
      if Canonical L (payload L b.toNat F.toNat) then .ok { len := L, val := unpack L b F }
      else .error .redundantEncode := by
  have hv := unpack_toNat h1 b F hF
  simp only [finishDecode]
  by_cases hc : Canonical L (payload L b.toNat F.toNat)
  · rw [if_pos hc, if_pos ((canonOk_iff _ _).mpr (hv ▸ hc))]
  · rw [if_neg hc, if_neg (fun h => hc (hv ▸ (canonOk_iff _ _).mp h))]

/-! ### The encoder -/

/-- `encode` gives `encoded_len` bytes (41_encode.md R116). -/
theorem encodeValue_length (v : Word) : (encodeValue v).length = encodedLen v := by
  obtain ⟨h1, h2, -, -⟩ := encodedLen_least v
  simp only [encodeValue]
  split
  · simp; omega
  · split
    · simp; omega
    · split <;> simp <;> omega

/-- Byte `i` of `encode(v)` is the byte of the layout (41_encode.md R112 to R115; 30_encoding.md R61 to R63). -/
theorem encodeValue_getD (v : Word) (i : Nat) :
    ((encodeValue v).getD i 0).toNat = layoutByte (encodedLen v) v.toNat i := by
  obtain ⟨h1, h2, h3, h4⟩ := encodedLen_least v
  have hlen := encodeValue_length v
  rcases Nat.lt_or_ge i (encodedLen v) with hi | hi
  swap
  · rw [List.getD_eq_default _ _ (hlen ▸ hi), layoutByte, if_pos hi]; rfl
  have hp : ∀ L, 1 ≤ L → L ≤ 9 → (prefixByte L).toNat = 256 - 2 ^ (9 - L) := by
    intro L h1 h2
    interval_cases L <;> rfl
  generalize hL : encodedLen v = L at *
  simp only [encodeValue, hL]
  rw [layoutByte, if_neg (show ¬ L ≤ i by omega)]
  have hv := v.isLt
  split
  next h0 =>
    have : L = 1 := by omega
    subst this
    have : i = 0 := by omega
    subst this
    simp at h3 ⊢
    omega
  next h0 =>
    rw [if_neg (show ¬ L = 1 by omega)]
    split
    next h6 =>
      rw [if_pos (show L ≤ 7 by omega)]
      have h3 := h3 (by omega)
      have hS : (v <<< L).toNat = v.toNat * 2 ^ L := by
        rw [BitVec.toNat_shiftLeft, Nat.shiftLeft_eq, Nat.mod_eq_of_lt]
        have : 2 ^ (7 * L) * 2 ^ L ≤ 2 ^ 56 := by
          rw [← Nat.pow_add]; exact Nat.pow_le_pow_right (by decide) (by omega)
        have hpos : 0 < 2 ^ L := Nat.two_pow_pos L
        have := Nat.mul_lt_mul_of_pos_right h3 hpos
        omega
      rcases Nat.eq_zero_or_pos i with rfl | hpos
      · rw [if_pos rfl, List.getD_cons_zero, leBytes_getD (by decide), hS, BitVec.toNat_or, hp L h1 h2]
        simp only [BitVec.toNat_ushiftRight, BitVec.toNat_ofNat, Nat.shiftRight_eq_div_pow, Nat.mul_zero, Nat.pow_zero,
          Nat.div_one]
        have hlow : v.toNat * 2 ^ L % 2 ^ 8 / 2 ^ L = v.toNat % 2 ^ (8 - L) := by
          interval_cases L <;> omega
        rw [hlow]
        have hlt : v.toNat % 2 ^ (8 - L) < 2 ^ (9 - L) :=
          Nat.lt_of_lt_of_le (Nat.mod_lt _ (Nat.two_pow_pos _)) (Nat.pow_le_pow_right (by decide) (by omega))
        have hmul : 256 - 2 ^ (9 - L) = (2 ^ (L - 1) - 1) <<< (9 - L) := by
          interval_cases L <;> rfl
        rw [hmul, ← Nat.shiftLeft_add_eq_or_of_lt hlt]
      · rw [if_neg (by omega), ← Nat.succ_pred_eq_of_pos hpos, List.getD_cons_succ]
        have : ((leBytes 8 (v <<< L).toNat).drop 1 |>.take (L - 1)).getD i.pred 0
            = (leBytes 8 (v <<< L).toNat).getD i 0 := by
          have hi' : i.pred < L - 1 := by simp; omega
          simp only [List.getD_eq_getElem?_getD, List.getElem?_take, hi', if_true, List.getElem?_drop]
          congr 2
          simp; omega
        rw [this, leBytes_getD (by omega), hS, BitVec.toNat_ofNat, Nat.succ_eq_add_one, Nat.pred_eq_sub_one,
          Nat.sub_add_cancel hpos]
        have : 2 ^ (8 * i) = 2 ^ L * 2 ^ (8 * i - L) := by rw [← Nat.pow_add]; congr 1; omega
        rw [this, ← Nat.div_div_eq_div_mul, Nat.mul_div_cancel _ (Nat.two_pow_pos L)]
    next h6 =>
      rw [if_neg (show ¬ L ≤ 7 by omega)]
      have cons (c : Byte) (k : Nat) (hk : i ≤ k) :
          ((c :: leBytes k v.toNat).getD i 0).toNat =
            if i = 0 then c.toNat else v.toNat / 2 ^ (8 * i - 8) % 256 := by
        rcases Nat.eq_zero_or_pos i with rfl | hpos
        · simp
        · rw [if_neg (by omega), ← Nat.succ_pred_eq_of_pos hpos, List.getD_cons_succ, leBytes_getD (by simp; omega),
            BitVec.toNat_ofNat]
          rfl
      split
      next h7 =>
        rw [if_pos (show L = 8 by omega)]
        exact cons _ _ (by omega)
      next h7 =>
        rw [if_neg (show ¬ L = 8 by omega)]
        exact cons _ _ (by omega)

end Sys2Proof.Machine
end

