-- ==== Sys2Proof/Laws/Decode.lean ====
section
/-! SUPPORT. The fields of a packed request read back (30_encoding.md R70), and the pattern table of the first byte
(R60). -/

namespace Sys2Proof

open Sys2Proof.Machine

variable (op n : BitVec 4) (fb : Byte) (a : Word) (B : Buf)

/-- The nine buffer bytes form a number of 72 bits. -/
theorem leNat_bufSlice_lt : leNat (bufSlice B 0 9) < 2 ^ 72 := by
  simpa using leNat_lt (bufSlice B 0 9)

/-- A packed request is the sum of its fields at their places. -/
theorem packRequest_toNat : (packRequest op n fb a B).toNat =
    op.toNat + 2 ^ 4 * n.toNat + 2 ^ 8 * fb.toNat + 2 ^ 16 * a.toNat + 2 ^ 80 * leNat (bufSlice B 0 9) := by
  have := leNat_bufSlice_lt B
  have := op.isLt
  have := n.isLt
  have := fb.isLt
  have := a.isLt
  rw [packRequest, BitVec.toNat_ofNat]
  omega

@[simp] theorem reqOp_packRequest : reqOp (packRequest op n fb a B) = op := by
  have := op.isLt
  refine BitVec.eq_of_toNat_eq ?_
  simp only [reqOp, BitVec.extractLsb'_toNat, packRequest_toNat, Nat.shiftRight_eq_div_pow]
  omega

@[simp] theorem reqN_packRequest : reqN (packRequest op n fb a B) = n := by
  have := op.isLt
  have := n.isLt
  refine BitVec.eq_of_toNat_eq ?_
  simp only [reqN, BitVec.extractLsb'_toNat, packRequest_toNat, Nat.shiftRight_eq_div_pow]
  omega

@[simp] theorem reqFb_packRequest : reqFb (packRequest op n fb a B) = fb := by
  have := op.isLt
  have := n.isLt
  have := fb.isLt
  refine BitVec.eq_of_toNat_eq ?_
  simp only [reqFb, BitVec.extractLsb'_toNat, packRequest_toNat, Nat.shiftRight_eq_div_pow]
  omega

@[simp] theorem reqA_packRequest : reqA (packRequest op n fb a B) = a := by
  have := op.isLt
  have := n.isLt
  have := fb.isLt
  have := a.isLt
  refine BitVec.eq_of_toNat_eq ?_
  simp only [reqA, BitVec.extractLsb'_toNat, packRequest_toNat, Nat.shiftRight_eq_div_pow]
  omega

@[simp] theorem reqIbuf_packRequest : reqIbuf (packRequest op n fb a B) = B := by
  have hop := op.isLt
  have hn := n.isLt
  have hfb := fb.isLt
  have ha := a.isLt
  refine buf_ext fun i hi => BitVec.eq_of_toNat_eq ?_
  have hb : ∀ j, (bufByte B j).toNat < 256 := fun j => (bufByte B j).isLt
  have h0 := hb 0
  have h1 := hb 1
  have h2 := hb 2
  have h3 := hb 3
  have h4 := hb 4
  have h5 := hb 5
  have h6 := hb 6
  have h7 := hb 7
  have h8 := hb 8
  rw [reqIbuf, bufByte_bufOfFn _ hi]
  simp only [BitVec.extractLsb'_toNat, packRequest_toNat, Nat.shiftRight_eq_div_pow]
  simp only [bufSlice, List.range_succ, List.range_zero, List.nil_append, List.map_cons, List.map_nil,
    List.cons_append, leNat, Nat.zero_add]
  interval_cases i <;> omega

/-- No two rows of the first-byte patterns overlap (30_encoding.md R60, R66). -/
theorem wireRows_disjoint : wireRows.Pairwise fun r r' => ∀ b : Byte, ¬ (rowMatches b r = true ∧ rowMatches b r' = true) := by
  decide

/-- The pattern table and the leading-one count agree on what a first byte announces (40_length.md R95). -/
theorem wireLen_announces (b : Byte) : Announces b.toNat (wireLen b) := by
  revert b
  decide

end Sys2Proof
end

