-- ==== Sys2Proof/Laws/State.lean ====
section
/-! SUPPORT. One lemma per field per update of State, so that no proof unfolds a record update. -/

namespace Sys2Proof.Machine

open Sys2Proof

variable (r : Response) (k : ErrKind) (es : List HostEvent) (p : Packet) (s : State)

@[simp] theorem respond_rstat : (respond r s).rstat = r.stat := rfl
@[simp] theorem respond_rlen : (respond r s).rlen = r.len := rfl
@[simp] theorem respond_rval : (respond r s).rval = r.val := rfl
@[simp] theorem respond_rbuf : (respond r s).rbuf = r.buf := rfl
@[simp] theorem respond_config : (respond r s).config = s.config := rfl
@[simp] theorem respond_pending : (respond r s).pending = s.pending := rfl

@[simp] theorem raise_rstat : (raise k s).rstat = k.code := rfl
@[simp] theorem raise_rlen : (raise k s).rlen = 0 := rfl
@[simp] theorem raise_rval : (raise k s).rval = 0 := rfl
@[simp] theorem raise_rbuf : (raise k s).rbuf = zeroBuf := rfl
@[simp] theorem raise_config : (raise k s).config = s.config := rfl
@[simp] theorem raise_pending : (raise k s).pending = s.pending := rfl

@[simp] theorem resetRegisters_rstat : (resetRegisters s).rstat = 0 := rfl
@[simp] theorem resetRegisters_rlen : (resetRegisters s).rlen = 0 := rfl
@[simp] theorem resetRegisters_rval : (resetRegisters s).rval = 0 := rfl
@[simp] theorem resetRegisters_rbuf : (resetRegisters s).rbuf = zeroBuf := rfl
@[simp] theorem resetRegisters_config : (resetRegisters s).config = s.config := rfl
@[simp] theorem resetRegisters_pending : (resetRegisters s).pending = s.pending := rfl

@[simp] theorem withPending_rstat : (withPending es s).rstat = s.rstat := rfl
@[simp] theorem withPending_rlen : (withPending es s).rlen = s.rlen := rfl
@[simp] theorem withPending_rval : (withPending es s).rval = s.rval := rfl
@[simp] theorem withPending_rbuf : (withPending es s).rbuf = s.rbuf := rfl
@[simp] theorem withPending_config : (withPending es s).config = s.config := rfl
@[simp] theorem withPending_pending : (withPending es s).pending = es := rfl

@[simp] theorem presentFirst_rstat : (presentFirst p s).rstat = s.rstat := rfl
@[simp] theorem presentFirst_rlen : (presentFirst p s).rlen = s.rlen := rfl
@[simp] theorem presentFirst_rval : (presentFirst p s).rval = s.rval := rfl
@[simp] theorem presentFirst_rbuf : (presentFirst p s).rbuf = s.rbuf := rfl
@[simp] theorem presentFirst_config : (presentFirst p s).config = s.config := rfl
@[simp] theorem presentFirst_pending : (presentFirst p s).pending = .present p :: s.pending := rfl

/-- `resetOf` is `resetRegisters` of any state of the build with nothing presented. -/
theorem resetOf_eq (c : Config) (h : s.config = c) (hp : s.pending = []) : resetRegisters s = State.resetOf c := by
  cases s
  simp only at h hp
  subst h hp
  rfl

end Sys2Proof.Machine
end

