-- ==== Sys2Proof/Laws/Ops.lean ====
section
/-! SUPPORT. One lemma per shared operation that says once everything it can do: the three decode entry points by value,
the delivery of a result, the gate of the zigzag unit, the step over the host's script, and the host's sequences. -/

namespace Sys2Proof.Machine

open Sys2Proof

/-- The response that delivers a decode's result. -/
def resultResponse (r : Except ErrKind Decoded) : Response :=
  match r with
  | .ok d => okDecoded d.len d.val
  | .error k => errResponse k

/-- Delivering a result always completes, with the result's response. -/
theorem deliver_eq (r : Except ErrKind Decoded) (s : State) : deliver r s = .next (respond (resultResponse r) s) := by
  cases r <;> rfl

/-- The gate: the operation where the unit exists, `IllegalOp` elsewhere (43_zigzag_signed.md R166). -/
theorem withSigned_cases (m : State → Host.Outcome State Fault Refusal) (s : State) :
    (s.config.hasSigned = true ∧ withSigned m s = m s) ∨
      (s.config.hasSigned = false ∧ withSigned m s = .next (raise .illegalOp s)) := by
  cases h : s.config.hasSigned
  · exact .inr ⟨rfl, by simp [withSigned, h]⟩
  · exact .inl ⟨rfl, by simp [withSigned, h]⟩

/-- `decode` of a slice, by value: the checks of 42_decode.md R132 in their order. -/
theorem decodeSlice_eq {n L : Nat} {B : Buf} (h : Announces (bufByte B 0).toNat L) :
    decodeSlice n B =
      if n < L then .error .truncated
      else if Canonical L (slicePayload L B) then
        .ok { len := L, val := unpack L (bufByte B 0) (sliceFollow B L) }
      else .error .redundantEncode := by
  obtain ⟨h1, h2, -, -⟩ := id h
  have hF : (sliceFollow B L).toNat = followNumber (fun j => (bufByte B (j + 1)).toNat) (L - 1) := by
    rw [sliceFollow, memRead_toNat _ _ (by omega)]
    simp only [Nat.add_comm 1]
  have hlt : (sliceFollow B L).toNat < 2 ^ (8 * (L - 1)) := by
    rw [hF]
    have := leNat_lt (bufSlice B 1 (L - 1))
    rw [leNat_eq_followNumber, bufSlice_length] at this
    refine lt_of_eq_of_lt (Finset.sum_congr rfl fun j hj => ?_) this
    have : j < L - 1 := Finset.mem_range.mp hj
    simp [bufSlice, this, Nat.add_comm 1]
  simp only [decodeSlice, sliceFirst, decodedLen_eq h, sliceTooShort]
  by_cases hn : n < L
  · simp [hn]
  · rw [if_neg hn, if_neg (by simp; omega), finishDecode_eq h1 _ _ (fun _ => hlt), hF]
    rfl

/-- `decode_split`, by value (42_decode.md R136). -/
theorem decodeSplit_eq {n L : Nat} {fb : Byte} {B : Buf} (h : Announces fb.toNat L) :
    decodeSplit n fb B =
      if n < L - 1 then .error .truncated
      else if Canonical L (payload L fb.toNat (followNumber (fun j => (bufByte B j).toNat) (L - 1))) then
        .ok { len := L, val := unpack L fb (splitFollow B L) }
      else .error .redundantEncode := by
  obtain ⟨h1, h2, -, -⟩ := id h
  have hF : (splitFollow B L).toNat = followNumber (fun j => (bufByte B j).toNat) (L - 1) := by
    rw [splitFollow, memRead_toNat _ _ (by omega)]
    simp only [Nat.zero_add]
  have hlt : (splitFollow B L).toNat < 2 ^ (8 * (L - 1)) := by
    rw [hF]
    have := leNat_lt (bufSlice B 0 (L - 1))
    rw [leNat_eq_followNumber, bufSlice_length] at this
    refine lt_of_eq_of_lt (Finset.sum_congr rfl fun j hj => ?_) this
    have : j < L - 1 := Finset.mem_range.mp hj
    simp [bufSlice, this]
  simp only [decodeSplit, decodedLen_eq h, followTooShort]
  by_cases hn : n < L - 1
  · simp [hn]
  · rw [if_neg hn, if_neg (by simp; omega), finishDecode_eq h1 _ _ (fun _ => hlt), hF]

/-- `decode_packed`, by value (42_decode.md R137, R138). -/
theorem decodePacked_eq {L : Nat} {fb : Byte} {w : Word} (h : Announces fb.toNat L) :
    decodePacked fb w =
      if Canonical L (payload L fb.toNat (w.toNat % 2 ^ (8 * (L - 1)))) then
        .ok { len := L, val := unpack L fb (packedFollow w L) }
      else .error .redundantEncode := by
  have hF := packedFollow_toNat w L
  simp only [decodePacked, decodedLen_eq h]
  rw [finishDecode_eq h.1 _ _ (fun _ => by rw [hF]; exact Nat.mod_lt _ (Nat.two_pow_pos _)), hF]

/-- What a step does: nothing, a reset, an instruction, or `Truncated` for a wire packet with too few bytes. -/
theorem step_cases (s : State) :
    (s.pending = [] ∧ step s = .next s) ∨
      (∃ rest, s.pending = .reset :: rest ∧ step s = .next (resetRegisters (withPending rest s))) ∨
      (∃ p rest i, s.pending = .present p :: rest ∧ decode p = .ok i ∧ step s = exec i (withPending rest s)) ∨
      (∃ p rest e, s.pending = .present p :: rest ∧ decode p = .error e ∧
        step s = .next (raise .truncated (withPending rest s))) := by
  cases hp : s.pending with
  | nil => exact .inl ⟨rfl, by simp [step, serve, hp]⟩
  | cons e rest =>
    cases e with
    | reset => exact .inr (.inl ⟨rest, rfl, by simp [step, serve, hp, answerEvent]⟩)
    | present p =>
      cases hd : decode p with
      | ok i => exact .inr (.inr (.inl ⟨p, rest, i, rfl, hd, by simp [step, serve, hp, answerEvent, answerPacket, hd]⟩))
      | error e =>
        refine .inr (.inr (.inr ⟨p, rest, e, rfl, hd, ?_⟩))
        cases e <;> simp [step, serve, hp, answerEvent, answerPacket, hd]

/-! ### The host's sequences -/

@[simp] theorem thenHost_next {α : Type} (t : State) (k : State → Option α) : thenHost (.next t) k = k t := rfl

/-- A request the host goes on from has completed. -/
theorem thenHost_some {α : Type} {o : Host.Outcome State Fault Refusal} {k : State → Option α} {x : α}
    (h : thenHost o k = some x) : ∃ t, o = .next t ∧ k t = some x := by
  cases o with
  | next t => exact ⟨t, rfl, h⟩
  | fault e => cases h
  | refused e => cases h

/-- `DECLEN`'s answer, for a first byte that announces length `L`. -/
theorem exec_declen_next {b : Byte} {L : Nat} (h : Announces b.toNat L) (s : State) :
    exec (.declen b) s = .next (respond (okLen L) s) := by
  rw [← decodedLen_eq h]
  rfl

/-- The stream-read sequence on a first byte that announces length `L`: the dry source first, then the split decode
of exactly `L - 1` follow bytes (60_exceptions.md R189). -/
theorem hostReadWith_cons {f : Byte → List Byte → Instr} {b : Byte} {tail : List Byte} {L : Nat}
    (h : Announces b.toNat L) (s : State) :
    hostReadWith f (b :: tail) s =
      if tail.length < L - 1 then none
      else thenHost (exec (f b (tail.take (L - 1))) (respond (okLen L) s)) fun u => some (u, tail.drop (L - 1)) := by
  have hL : (respond (okLen L) s).rlen.toNat = L := by
    have := h.2.1
    simp only [respond, okLen, BitVec.toNat_ofNat]
    omega
  simp only [hostReadWith, exec_declen_next h, thenHost_next, hL]

/-- The stream-write sequence, once it is answered: the encode completed, and the bytes are its result's, or none
after an error. -/
theorem hostWriteWith_some {i : Instr} {s t : State} {bytes : List Byte} (h : hostWriteWith i s = some (t, bytes)) :
    exec i s = .next t ∧ ((t.rstat = 0 ∧ bytes = resultBytes t) ∨ (t.rstat ≠ 0 ∧ bytes = [])) := by
  obtain ⟨u, hu, h⟩ := thenHost_some h
  obtain ⟨rfl, rfl⟩ := Prod.mk.inj (Option.some.inj h)
  refine ⟨hu, ?_⟩
  by_cases h0 : u.rstat = 0
  · exact .inl ⟨h0, if_pos h0⟩
  · exact .inr ⟨h0, if_neg h0⟩

end Sys2Proof.Machine
end

