-- ==== Sys2Proof/Laws/PerInstr.lean ====
section
/-! SUPPORT. A family of statements with one lemma per constructor of Instr: the packet of an instruction matches the
instruction's own row of the opcode table (30_encoding.md R60, R72). -/

namespace Sys2Proof.Laws.MatchesRow

open Sys2Proof Sys2Proof.Machine

/-- `packet & mask = match` for the instruction's row. -/
def Statement (i : Instr) : Prop := packetBits (encode i) &&& (opcodeRow i).1 = (opcodeRow i).2

/-- The mask of a request row keeps the operation select. -/
theorem request_op (op n : BitVec 4) (fb : Byte) (a : Word) (B : Buf) :
    (packRequest op n fb a B).toNat &&& 0xF = op.toNat := by
  have h := op.isLt
  rw [show (0xF : Nat) = 2 ^ 4 - 1 from rfl, Nat.and_two_pow_sub_one_eq_mod, packRequest_toNat]
  omega

theorem enclen (a) : Statement (.enclen a) := request_op _ _ _ _ _
theorem declen (a) : Statement (.declen a) := request_op _ _ _ _ _
theorem enc (a) : Statement (.enc a) := request_op _ _ _ _ _
theorem dec (a b) : Statement (.dec a b) := request_op _ _ _ _ _
theorem decs (a b c) : Statement (.decs a b c) := request_op _ _ _ _ _
theorem decp (a b) : Statement (.decp a b) := request_op _ _ _ _ _
theorem zzenc (a) : Statement (.zzenc a) := request_op _ _ _ _ _
theorem zzdec (a) : Statement (.zzdec a) := request_op _ _ _ _ _
theorem enci (a) : Statement (.enci a) := request_op _ _ _ _ _
theorem deci (a b) : Statement (.deci a b) := request_op _ _ _ _ _
theorem decsi (a b c) : Statement (.decsi a b c) := request_op _ _ _ _ _
theorem decpi (a b) : Statement (.decpi a b) := request_op _ _ _ _ _
theorem reserved12 : Statement (.reserved12) := request_op _ _ _ _ _
theorem reserved13 : Statement (.reserved13) := request_op _ _ _ _ _
theorem reserved14 : Statement (.reserved14) := request_op _ _ _ _ _
theorem reserved15 : Statement (.reserved15) := request_op _ _ _ _ _

/-- A first byte, its prefix bits above its value bits, matches the row of its length, for L = 1 to 7. -/
theorem first_byte_rows :
    (∀ x : BitVec 7, (0b0#1 ++ x).toNat &&& 0x80 = 0x00) ∧
    (∀ x : BitVec 6, (0b10#2 ++ x).toNat &&& 0xC0 = 0x80) ∧
    (∀ x : BitVec 5, (0b110#3 ++ x).toNat &&& 0xE0 = 0xC0) ∧
    (∀ x : BitVec 4, (0b1110#4 ++ x).toNat &&& 0xF0 = 0xE0) ∧
    (∀ x : BitVec 3, (0b11110#5 ++ x).toNat &&& 0xF8 = 0xF0) ∧
    (∀ x : BitVec 2, (0b111110#6 ++ x).toNat &&& 0xFC = 0xF8) ∧
    (∀ x : BitVec 1, (0b1111110#7 ++ x).toNat &&& 0xFE = 0xFC) := by
  refine ⟨?_, ?_, ?_, ?_, ?_, ?_, ?_⟩ <;> decide

theorem wireL1 (x) : Statement (.wireL1 x) := first_byte_rows.1 x
theorem wireL2 (x f) : Statement (.wireL2 x f) := first_byte_rows.2.1 x
theorem wireL3 (x f) : Statement (.wireL3 x f) := first_byte_rows.2.2.1 x
theorem wireL4 (x f) : Statement (.wireL4 x f) := first_byte_rows.2.2.2.1 x
theorem wireL5 (x f) : Statement (.wireL5 x f) := first_byte_rows.2.2.2.2.1 x
theorem wireL6 (x f) : Statement (.wireL6 x f) := first_byte_rows.2.2.2.2.2.1 x
theorem wireL7 (x f) : Statement (.wireL7 x f) := first_byte_rows.2.2.2.2.2.2 x
theorem first_byte_rows_89 : (0xFE#8).toNat &&& 0xFF = 0xFE ∧ (0xFF#8).toNat &&& 0xFF = 0xFF := by decide
theorem wireL8 (f) : Statement (.wireL8 f) := first_byte_rows_89.1
theorem wireL9 (f) : Statement (.wireL9 f) := first_byte_rows_89.2

end Sys2Proof.Laws.MatchesRow
end

