-- ==== Sys2Proof/Tests/Slice0.lean ====
section
/-! SUPPORT. Tests. Every expected result is a vector of spec/95_test_vectors.md, named in the comment, or is worked
out by hand from the rule named there. The `witness_` theorems show, for each statement with hypotheses, a state and
operands that meet all of them together. -/

namespace Sys2Proof.Tests

open Sys2Proof Sys2Proof.Machine

/-- The response to a packet presented right after reset, in the default build. -/
def answered (p : Packet) : Option (BitVec 144) :=
  match step (presentFirst p State.reset) with
  | .next t => some (responseVector t)
  | .fault _ => none
  | .refused _ => none

/-- The response to a packet in a build without the zigzag unit. -/
def answeredUnsigned (p : Packet) : Option (BitVec 144) :=
  match step (presentFirst p (State.resetOf { hasSigned := false })) with
  | .next t => some (responseVector t)
  | .fault _ => none
  | .refused _ => none

/-- The state after an instruction right after reset. -/
def after (i : Instr) : State :=
  match exec i State.reset with
  | .next t => t
  | .fault _ => State.reset
  | .refused _ => State.reset

/-! ### Decoding: words written out from the encodings of the spec -/

-- F1: ENCLEN 0x12C
theorem test_decode_enclen : decode (.request 0x12c0000) = .ok (.enclen 300) := by decide
-- F2: DECLEN 0xC5
theorem test_decode_declen : decode (.request 0xc501) = .ok (.declen 0xC5) := by decide
-- F3: ENC 0x12C
theorem test_decode_enc : decode (.request 0x12c0002) = .ok (.enc 300) := by decide
-- F4: DEC [AC 04]
theorem test_decode_dec : decode (.request 0x4ac00000000000000000023) = .ok (.dec 2 #v[0xAC, 4, 0, 0, 0, 0, 0, 0, 0]) := by decide
-- F5: DECS 0xAC, [04]
theorem test_decode_decs : decode (.request 0x40000000000000000ac14) = .ok (.decs 1 0xAC #v[4, 0, 0, 0, 0, 0, 0, 0, 0]) := by decide
-- F6: DECP 0xAC, 4
theorem test_decode_decp : decode (.request 0x4ac05) = .ok (.decp 0xAC 4) := by decide
-- F7: ZZENC -2
theorem test_decode_zzenc : decode (.request 0xfffffffffffffffe0006) = .ok (.zzenc (-2)) := by decide
-- F8: ZZDEC 3
theorem test_decode_zzdec : decode (.request 0x30007) = .ok (.zzdec 3) := by decide
-- F9: ENCI -65
theorem test_decode_enci : decode (.request 0xffffffffffffffbf0008) = .ok (.enci (-65)) := by decide
-- F10: DECI [81 02]
theorem test_decode_deci : decode (.request 0x28100000000000000000029) = .ok (.deci 2 #v[0x81, 2, 0, 0, 0, 0, 0, 0, 0]) := by decide
-- F11: DECSI 0x81, [02]
theorem test_decode_decsi : decode (.request 0x20000000000000000811a) = .ok (.decsi 1 0x81 #v[2, 0, 0, 0, 0, 0, 0, 0, 0]) := by decide
-- F12: DECPI 0x81, 2
theorem test_decode_decpi : decode (.request 0x2810b) = .ok (.decpi 0x81 2) := by decide
-- F15
theorem test_decode_reserved12 : decode (.request 0x0C) = .ok .reserved12 := by decide
-- program 3, step 7
theorem test_decode_reserved13 : decode (.request 0x0D) = .ok .reserved13 := by decide
-- R72: op 14
theorem test_decode_reserved14 : decode (.request 0x0E) = .ok .reserved14 := by decide
-- F16: every bit of the request set
theorem test_decode_reserved15 : decode (.request (BitVec.allOnes 152)) = .ok .reserved15 := by decide
-- E5: 7F
theorem test_decode_wireL1 : decode (.wire [0x7F]) = .ok (.wireL1 0x7F) := by decide
-- E11: B4 48
theorem test_decode_wireL2 : decode (.wire [0xB4, 0x48]) = .ok (.wireL2 0x34 0x48) := by decide
-- E14: C1 00 02
theorem test_decode_wireL3 : decode (.wire [0xC1, 0x00, 0x02]) = .ok (.wireL3 1 0x0200) := by decide
-- E17: EF FF FF FF
theorem test_decode_wireL4 : decode (.wire [0xEF, 0xFF, 0xFF, 0xFF]) = .ok (.wireL4 0xF 0xFFFFFF) := by decide
-- E19: F7 FF FF FF 1F
theorem test_decode_wireL5 : decode (.wire [0xF7, 0xFF, 0xFF, 0xFF, 0x1F]) = .ok (.wireL5 7 0x1FFFFFFF) := by decide
-- E21: F8 00 00 00 00 02
theorem test_decode_wireL6 : decode (.wire [0xF8, 0x00, 0x00, 0x00, 0x00, 0x02]) = .ok (.wireL6 0 0x0200000000) := by decide
-- E24: FD FF FF FF FF FF FF
theorem test_decode_wireL7 : decode (.wire [0xFD, 0xFF, 0xFF, 0xFF, 0xFF, 0xFF, 0xFF]) = .ok (.wireL7 1 0xFFFFFFFFFFFF) := by decide
-- E25: FE 00 00 00 00 00 00 02
theorem test_decode_wireL8 : decode (.wire [0xFE, 0x00, 0x00, 0x00, 0x00, 0x00, 0x00, 0x02]) = .ok (.wireL8 0x02000000000000) := by decide
-- E29: FF F0 DE BC 9A 78 56 34 12
theorem test_decode_wireL9 : decode (.wire [0xFF, 0xF0, 0xDE, 0xBC, 0x9A, 0x78, 0x56, 0x34, 0x12]) = .ok (.wireL9 0x123456789ABCDEF0) := by decide

-- E11 with bytes of the next encodings behind it (R67)
theorem test_decode_wire_leaves_rest : decodeWire [0xB4, 0x48, 0x7F, 0x80] = .ok (.wireL2 0x34 0x48, [0x7F, 0x80]) := by
  decide
-- R66 (a): C0 80 lacks a byte
theorem test_decode_wire_truncated : decode (.wire [0xC0, 0x80]) = .error .truncatedWire := by decide
-- R134
theorem test_decode_wire_empty : decode (.wire []) = .error .emptyWire := by decide
-- the opcode table's words: op 5 alone, and the first byte 110xxxxx with zeros behind it
theorem test_table_word_decp : decodeTableWord 8 0x05 = some (.decp 0 0) := by decide
theorem test_table_word_wireL3 : decodeTableWord 8 0xC0 = some (.wireL3 0 0) := by decide

/-! ### Well-formedness: one ill-formed term for each check -/

-- R74
theorem test_illFormed_reserved : Instr.wellFormed Config.standard .reserved14 = false := by decide
-- R166
theorem test_illFormed_signed : Instr.wellFormed { hasSigned := false } (.enci 1) = false := by decide
-- R66 (b), C1: [80 00] carries 0
theorem test_illFormed_redundant : Instr.wellFormed Config.standard (.wireL2 0 0) = false := by decide
-- C3: [80 02] carries 0x80
theorem test_wellFormed_canonical : Instr.wellFormed Config.standard (.wireL2 0 2) = true := by decide

/-! ### One step: the response vector of the spec's vectors -/

-- F1
theorem test_step_enclen :
    answered (.request 0x12c0000) = some 0x20 := by decide
-- F2
theorem test_step_declen :
    answered (.request 0xc501) = some 0x30 := by decide
-- F3
theorem test_step_enc :
    answered (.request 0x12c0002) = some 0x4ac000000000000000020 := by decide
-- F4
theorem test_step_dec :
    answered (.request 0x4ac00000000000000000023) = some 0x12c20 := by decide
-- F6
theorem test_step_decp :
    answered (.request 0x4ac05) = some 0x12c20 := by decide
-- F7
theorem test_step_zzenc :
    answered (.request 0xfffffffffffffffe0006) = some 0x300 := by decide
-- F8
theorem test_step_zzdec :
    answered (.request 0x30007) = some 0xfffffffffffffffe00 := by decide
-- F9
theorem test_step_enci :
    answered (.request 0xffffffffffffffbf0008) = some 0x281000000000000000020 := by decide
-- F10
theorem test_step_deci :
    answered (.request 0x28100000000000000000029) = some 0xffffffffffffffbf20 := by decide
-- F11
theorem test_step_decsi :
    answered (.request 0x20000000000000000811a) = some 0xffffffffffffffbf20 := by decide
-- F12
theorem test_step_decpi :
    answered (.request 0x2810b) = some 0xffffffffffffffbf20 := by decide
-- F15
theorem test_step_reserved12 :
    answered (.request 0xc) = some 0x3 := by decide
-- F16
theorem test_step_reserved15_all_ones :
    answered (.request 0xffffffffffffffffffffffffffffffffffffff) = some 0x3 := by decide
-- F19
theorem test_step_enc_unused_fields :
    answered (.request 0xaaaaaaaaaaaaaaaaaa000000000000012c5572) = some 0x4ac000000000000000020 := by decide
-- L15
theorem test_step_enclen_boundary :
    answered (.request 0xffffffffffffff0000) = some 0x80 := by decide
-- B15
theorem test_step_declen_boundary :
    answered (.request 0xfe01) = some 0x80 := by decide
-- C23
theorem test_step_dec_redundant :
    answered (.request 0xffffffffffffffff00000000000000000093) = some 0x2 := by decide
-- T30
theorem test_step_decs_truncated :
    answered (.request 0xffffffffffff0000000000000000fe64) = some 0x1 := by decide
-- D19
theorem test_step_decp_masked :
    answered (.request 0xaa02000000000000fe05) = some 0x200000000000080 := by decide
-- Z19
theorem test_step_zzenc_least :
    answered (.request 0x80000000000000000006) = some 0xffffffffffffffff00 := by decide
-- Z24
theorem test_step_zzdec_even :
    answered (.request 0xfffffffffffffffe0007) = some 0x7fffffffffffffff00 := by decide
-- T32
theorem test_step_decsi_truncated :
    answered (.request 0x810a) = some 0x1 := by decide
-- C33
theorem test_step_deci_redundant :
    answered (.request 0x8100000000000000000029) = some 0x2 := by decide
-- Z32
theorem test_step_decpi_least :
    answered (.request 0xffffffffffffffffff0b) = some 0x800000000000000090 := by decide
-- Z14 (ENCI)
theorem test_step_enci_class8 :
    answered (.request 0x7fffffffffffff0008) = some 0xfffffffffffffefe000000000000000080 := by decide
-- D13
theorem test_step_decs_surplus :
    answered (.request 0xeeee020000000000000000000000000000fef4) = some 0x200000000000080 := by decide
-- program 3, step 7
theorem test_step_reserved13 : answered (.request 0x0D) = some 0x03 := by decide
-- R180
theorem test_step_reserved14 : answered (.request 0x0E) = some 0x03 := by decide
-- F9 in a build without the zigzag unit (R166)
theorem test_step_unsigned_build : answeredUnsigned (.request 0xffffffffffffffbf0008) = some 0x03 := by decide
-- D1, as a wire packet (log entry 4)
theorem test_step_wireL1 : answered (.wire [0x00]) = some 0x10 := by decide
-- C3, as a wire packet (log entry 4)
theorem test_step_wireL2 : answered (.wire [0x80, 0x02]) = some 0x8020 := by decide
-- C5, as a wire packet (log entry 4)
theorem test_step_wireL3 : answered (.wire [0xDF, 0xFF, 0x01]) = some 0x2 := by decide
-- C9, as a wire packet (log entry 4)
theorem test_step_wireL4 : answered (.wire [0xE0, 0x00, 0x00, 0x02]) = some 0x20000040 := by decide
-- C11, as a wire packet (log entry 4)
theorem test_step_wireL5 : answered (.wire [0xF7, 0xFF, 0xFF, 0xFF, 0x01]) = some 0x2 := by decide
-- E22, as a wire packet (log entry 4)
theorem test_step_wireL6 : answered (.wire [0xFB, 0xFF, 0xFF, 0xFF, 0xFF, 0xFF]) = some 0x3ffffffffff60 := by decide
-- C17, as a wire packet (log entry 4)
theorem test_step_wireL7 : answered (.wire [0xFD, 0xFF, 0xFF, 0xFF, 0xFF, 0xFF, 0x01]) = some 0x2 := by decide
-- C21, as a wire packet (log entry 4)
theorem test_step_wireL8 : answered (.wire [0xFE, 0x00, 0x00, 0x00, 0x00, 0x00, 0x00, 0x02]) = some 0x200000000000080 := by decide
-- E28, as a wire packet (log entry 4)
theorem test_step_wireL9 : answered (.wire [0xFF, 0xEF, 0xCD, 0xAB, 0x89, 0x67, 0x45, 0x23, 0x01]) = some 0x123456789abcdef90 := by decide
-- T25, as a wire packet (log entry 5)
theorem test_step_wire_truncated : answered (.wire [0x81]) = some 0x01 := by decide
-- the opcode table's word for DECLEN, run as the first instruction after reset: a first byte 0x00 has length 1 (B1)
theorem test_withFetchWord_declen : step (State.reset.withFetchWord 8 0x01) = exec (.declen 0) State.reset := by rfl
-- R200: a reset event after ENC 300
theorem test_step_reset : step (withPending [.reset] (after (.enc 300))) = .next State.reset := by rfl

/-! ### Witnesses of the statements' hypotheses -/

/-- A slice with the bytes of the list in front. -/
def slice (l : List Nat) : Buf := bufOfList (l.map (BitVec.ofNat 8))

/-- A state in a build without the zigzag unit. -/
def plainState : State := State.resetOf { hasSigned := false }

-- ResetEventClearsTheRegistersAndNothingElse
theorem witness_reset_event : (withPending [.reset] (after (.enc 300))).pending = .reset :: [] := by decide
-- StepRunsTheDecodedInstruction
theorem witness_step_decoded : (withPending [.present (.request 0x012C0002)] State.reset).pending =
    .present (.request 0x012C0002) :: [] ∧ decode (.request 0x012C0002) = .ok (.enc 300) := by decide
-- StepWithNothingPresentedHoldsItsState
theorem witness_nothing_presented : (after (.enc 300)).pending = [] := by decide
-- ShortWirePacketAnswersTruncated: empty, one byte of two, eight of nine
theorem witness_short_wire : (Announces (([] : List Byte).headD 0).toNat 1 ∧ ([] : List Byte).length < 1) ∧
    (Announces ((0x81 :: [] : List Byte).headD 0).toNat 2 ∧ (0x81 :: [] : List Byte).length < 2) ∧
    Announces ((List.replicate 8 0xFF : List Byte).headD 0).toNat 9 ∧ (List.replicate 8 0xFF : List Byte).length < 9 := by
  decide
theorem witness_short_wire_presented : (withPending [.present (.wire [0x81])] State.reset).pending =
    .present (.wire [0x81]) :: [] := by decide
-- ScriptIsAnsweredInOrder
theorem witness_script :
    (withPending [.present (.wire []), .reset, .present (.request 0x012C0002), .reset] State.reset).pending =
      [.present (.wire []), .reset] ++ .present (.request 0x012C0002) :: [.reset] ∧
    decode (.request 0x012C0002) = .ok (.enc 300) := by decide
-- NothingChangesTheBuildOrTheScript
theorem witness_exec_next : exec (.enc 300) State.reset = .next (after (.enc 300)) := by rfl
theorem witness_step_next : step State.reset = .next State.reset := by rfl
-- ResponseDependsOnTheRequestAlone: registers that differ, one build
theorem witness_same_build : (after (.enc 300)).config = State.reset.config ∧ after (.enc 300) ≠ State.reset ∧
    exec (.declen 0xC5) (after (.enc 300)) = .next (respond (okLen 3) (after (.enc 300))) ∧
    exec (.declen 0xC5) State.reset = .next (respond (okLen 3) State.reset) :=
  ⟨by decide, by decide, by rfl, by rfl⟩
-- ResponseVectorHoldsTheRegisters, at the ends of each range of bytes
theorem witness_response_bytes : (1 ≤ 1 ∧ 1 ≤ 8 ∧ 1 ≤ 8 ∧ 8 ≤ 8) ∧ 9 ≤ 9 ∧ 9 ≤ 17 ∧ 9 ≤ 17 ∧ 17 ≤ 17 ∧ 8 < 9 := by decide
-- RequestVectorHoldsItsFields, at the ends of each range of bytes
theorem witness_request_bytes : (2 ≤ 2 ∧ 2 ≤ 9 ∧ 2 ≤ 9 ∧ 9 ≤ 9) ∧ 10 ≤ 10 ∧ 10 ≤ 18 ∧ 10 ≤ 18 ∧ 18 ≤ 18 := by decide
-- PrefixFunctionOfEachLength
theorem witness_prefix_range : 1 ≤ 9 ∧ 9 ≤ 9 ∧ 1 ≤ 1 ∧ 1 ≤ 9 := by decide
-- EnclenFollowsTheLeadingZeroTable: 0, 1, the greatest value, both sides of 2^56
theorem witness_leading_zeros : ((0 : Word) = 0 ∧ 64 = 64) ∧
    (63 ≤ 63 ∧ 2 ^ (63 - 63) ≤ (1 : Word).toNat ∧ (1 : Word).toNat < 2 ^ (64 - 63)) ∧
    (0 ≤ 63 ∧ 2 ^ (63 - 0) ≤ (BitVec.allOnes 64).toNat ∧ (BitVec.allOnes 64).toNat < 2 ^ (64 - 0)) ∧
    (8 ≤ 63 ∧ 2 ^ (63 - 8) ≤ (0xFFFFFFFFFFFFFF : Word).toNat ∧ (0xFFFFFFFFFFFFFF : Word).toNat < 2 ^ (64 - 8)) ∧
    (7 ≤ 63 ∧ 2 ^ (63 - 7) ≤ (0x100000000000000 : Word).toNat ∧ (0x100000000000000 : Word).toNat < 2 ^ (64 - 7)) := by
  decide
-- SelectedBy, for op 0 and op 11 with every other field set
theorem witness_selected : (BitVec.ofNat 152 0).toNat % 16 = 0 ∧ (BitVec.allOnes 152 - 4).toNat % 16 = 11 := by decide
-- NoEncodingBeginsAnother
theorem witness_prefix : ∀ i < (after (.enc 128)).rlen.toNat, bufByte (after (.enc 128)).rbuf i =
    bufByte (after (.enc 128)).rbuf i := fun _ _ => rfl
theorem witness_prefix_exec : exec (.enc 128) State.reset = .next (after (.enc 128)) := by rfl
-- DecAnswersItsSlice, SignedDecodesAnswerTheSignedValue: one byte short; the least accepted value (C3); the greatest
-- rejected one (C2); length 1 and length 9
theorem witness_slice_short : Announces (bufByte (slice [0x80, 2]) 0).toNat 2 ∧ ¬ 2 ≤ (1 : BitVec 4).toNat := by decide
theorem witness_slice_value : Announces (bufByte (slice [0x80, 2]) 0).toNat 2 ∧ 2 ≤ (2 : BitVec 4).toNat ∧
    Canonical 2 (slicePayload 2 (slice [0x80, 2])) := by decide
theorem witness_slice_redundant : Announces (bufByte (slice [0xBF, 1]) 0).toNat 2 ∧ 2 ≤ (2 : BitVec 4).toNat ∧
    ¬ Canonical 2 (slicePayload 2 (slice [0xBF, 1])) := by decide
theorem witness_slice_ends : (Announces (bufByte (slice [0x7F]) 0).toNat 1 ∧ 1 ≤ (1 : BitVec 4).toNat ∧
      Canonical 1 (slicePayload 1 (slice [0x7F]))) ∧
    Announces (bufByte (slice [0xFF, 0, 0, 0, 0, 0, 0, 0, 1]) 0).toNat 9 ∧ 9 ≤ (9 : BitVec 4).toNat ∧
      Canonical 9 (slicePayload 9 (slice [0xFF, 0, 0, 0, 0, 0, 0, 0, 1])) := by decide
-- DecsAnswersItsSplitInput and its signed form
theorem witness_split_short : Announces (0x80 : Byte).toNat 2 ∧ ¬ 2 - 1 ≤ (0 : BitVec 4).toNat := by decide
theorem witness_split_value : Announces (0x80 : Byte).toNat 2 ∧ 2 - 1 ≤ (1 : BitVec 4).toNat ∧
    Canonical 2 (payload 2 (0x80 : Byte).toNat (followNumber (fun j => (bufByte (slice [2]) j).toNat) (2 - 1))) := by decide
theorem witness_split_redundant : Announces (0xBF : Byte).toNat 2 ∧ 2 - 1 ≤ (1 : BitVec 4).toNat ∧
    ¬ Canonical 2 (payload 2 (0xBF : Byte).toNat (followNumber (fun j => (bufByte (slice [1]) j).toNat) (2 - 1))) := by
  decide
-- DecpAnswersItsPackedInput and its signed form (D14, C32)
theorem witness_packed_value : Announces (0x80 : Byte).toNat 2 ∧
    Canonical 2 (payload 2 (0x80 : Byte).toNat ((2 : Word).toNat % 2 ^ (8 * (2 - 1)))) := by decide
theorem witness_packed_redundant : Announces (0x80 : Byte).toNat 2 ∧
    ¬ Canonical 2 (payload 2 (0x80 : Byte).toNat ((0xFFFFFFFFFFFFFF01 : Word).toNat % 2 ^ (8 * (2 - 1)))) := by decide
-- PackedHighBytesAreIgnored (D14 and D18; D16 and D19)
theorem witness_packed_high : (Announces (0x80 : Byte).toNat 2 ∧
      (2 : Word).toNat % 2 ^ (8 * (2 - 1)) = (0xFFFFFFFFFFFFFF02 : Word).toNat % 2 ^ (8 * (2 - 1))) ∧
    Announces (0xFE : Byte).toNat 8 ∧
      (0x2000000000000 : Word).toNat % 2 ^ (8 * (8 - 1)) = (0xAA02000000000000 : Word).toNat % 2 ^ (8 * (8 - 1)) := by decide
-- SurplusBytesAreIgnored (D3)
theorem witness_surplus : Announces (bufByte (slice [0x80, 2]) 0).toNat 2 ∧
    (∀ i < 2, bufByte (slice [0x80, 2]) i = bufByte (slice [0x80, 2, 0x99]) i) ∧ 2 ≤ (2 : BitVec 4).toNat ∧
    2 ≤ (3 : BitVec 4).toNat := by decide
theorem witness_surplus_split : Announces (0x80 : Byte).toNat 2 ∧
    (∀ j < 2 - 1, bufByte (slice [2]) j = bufByte (slice [2, 0x99]) j) ∧ 2 - 1 ≤ (1 : BitVec 4).toNat ∧
    2 - 1 ≤ (15 : BitVec 4).toNat := by decide
-- EntryPointsAgreeOnCompleteInputs (F4, F5, F6)
theorem witness_entry_points : Announces (bufByte (slice [0xAC, 4]) 0).toNat 2 ∧ 2 ≤ (2 : BitVec 4).toNat ∧
    2 - 1 ≤ (1 : BitVec 4).toNat ∧ (∀ j < 2 - 1, bufByte (slice [4]) j = bufByte (slice [0xAC, 4]) (j + 1)) ∧
    (4 : Word).toNat % 2 ^ (8 * (2 - 1)) = followNumber (fun j => (bufByte (slice [0xAC, 4]) (j + 1)).toNat) (2 - 1) := by
  decide
-- DecodingAnEncodingGivesTheValueBack, SignedRoundTrip: the count RLEN itself, and 15
theorem witness_round_trip : (after (.enc 300)).rlen.toNat ≤ (2 : BitVec 4).toNat ∧
    (after (.enc 300)).rlen.toNat ≤ (15 : BitVec 4).toNat ∧ (after (.enci (-65))).rlen.toNat ≤ (2 : BitVec 4).toNat := by decide
-- EncodingADecodedSliceGivesItsBytesBack, DecodedValueFitsItsLength (C24)
theorem witness_decoded : exec (.dec 9 (slice [0xFF, 0, 0, 0, 0, 0, 0, 0, 1])) State.reset =
    .next (after (.dec 9 (slice [0xFF, 0, 0, 0, 0, 0, 0, 0, 1]))) := by rfl
theorem witness_decoded_ok : (after (.dec 9 (slice [0xFF, 0, 0, 0, 0, 0, 0, 0, 1]))).rstat = 0 := by decide
-- EveryStrictPrefixIsTruncated: the empty prefix and one byte of two
theorem witness_strict_prefix : (0 : BitVec 4).toNat < (after (.enc 128)).rlen.toNat ∧
    (1 : BitVec 4).toNat < (after (.enc 128)).rlen.toNat := by decide
-- the zigzag statements: a build with the unit, and one without
theorem witness_signed_build : State.reset.config.hasSigned = true ∧ plainState.config.hasSigned = false := by decide
-- SignedLengthClasses at a class boundary (Z7, Z9)
theorem witness_signed_class : 1 ≤ 1 ∧ 1 ≤ 8 ∧ -(2 ^ (7 * 1 - 1) : Int) ≤ (-64 : Word).toInt ∧
    (-64 : Word).toInt < 2 ^ (7 * 1 - 1) ∧ ¬ -(2 ^ (7 * 1 - 1) : Int) ≤ (-65 : Word).toInt := by decide
-- SignedDecodesFollowTheUnsignedOnes: one of each pair
theorem witness_signed_pair : (∃ n B, Instr.dec 2 (slice [0x81, 2]) = .dec n B ∧ Instr.deci 2 (slice [0x81, 2]) = .deci n B) ∧
    (∃ n fb B, Instr.decs 1 0x81 (slice [2]) = .decs n fb B ∧ Instr.decsi 1 0x81 (slice [2]) = .decsi n fb B) ∧
    ∃ fb w, Instr.decp 0x81 2 = .decp fb w ∧ Instr.decpi 0x81 2 = .decpi fb w :=
  ⟨⟨_, _, rfl, rfl⟩, ⟨_, _, _, rfl, rfl⟩, ⟨_, _, rfl, rfl⟩⟩
theorem witness_signed_pair_status : (after (.dec 2 (slice [0x81, 2]))).rstat.toNat = 0 ∧
    (after (.dec 2 (slice [0x81, 0]))).rstat.toNat ≠ 0 := by decide
-- ReservedCodesAnswerIllegalOp
theorem witness_reserved : Instr.reserved15 ∈ [Instr.reserved12, .reserved13, .reserved14, .reserved15] := by decide
-- UnselectedRequestAnswersIllegalOp: op 12 with every build, op 6 and 11 without the unit
theorem witness_unselected : 12 ≤ (0x0C : BitVec 152).toNat % 16 ∧
    (6 ≤ (0x06 : BitVec 152).toNat % 16 ∧ (0x06 : BitVec 152).toNat % 16 ≤ 11 ∧ plainState.config.hasSigned = false) ∧
    (6 ≤ (0x0B : BitVec 152).toNat % 16 ∧ (0x0B : BitVec 152).toNat % 16 ≤ 11) := by decide
-- WithoutTheZigzagUnit
theorem witness_isSigned : (Instr.zzenc 1).isSigned = true ∧ plainState.config.hasSigned = false ∧
    (Instr.enc 1).isSigned = false := by decide
-- StatusesOfEachOperation, WithoutTheZigzagUnit
theorem witness_request : encode .reserved12 = .request 0x0C := by decide
-- FailuresCarryNothingButTheirKind
theorem witness_failure : exec (.dec 0 (slice [])) State.reset = .next (after (.dec 0 (slice []))) := by rfl
theorem witness_failure_status : (after (.dec 0 (slice []))).rstat.toNat ≠ 0 := by decide
-- WireClassesAnswerTheirValue: the least accepted and the greatest rejected value of each class (section 2.6)
theorem witness_wire_accepted : Canonical 2 ((0 : BitVec 6).toNat + (2 : BitVec 8).toNat * 2 ^ 6) ∧
    Canonical 3 ((0 : BitVec 5).toNat + (0x200 : BitVec 16).toNat * 2 ^ 5) ∧
    Canonical 4 ((0 : BitVec 4).toNat + (0x20000 : BitVec 24).toNat * 2 ^ 4) ∧
    Canonical 5 ((0 : BitVec 3).toNat + (0x2000000 : BitVec 32).toNat * 2 ^ 3) ∧
    Canonical 6 ((0 : BitVec 2).toNat + (0x200000000 : BitVec 40).toNat * 2 ^ 2) ∧
    Canonical 7 ((0 : BitVec 1).toNat + (0x20000000000 : BitVec 48).toNat * 2 ^ 1) ∧
    Canonical 8 (0x2000000000000 : BitVec 56).toNat ∧ Canonical 9 (0x100000000000000 : BitVec 64).toNat := by decide
theorem witness_wire_rejected : ¬ Canonical 2 ((0x3F : BitVec 6).toNat + (1 : BitVec 8).toNat * 2 ^ 6) ∧
    ¬ Canonical 3 ((0x1F : BitVec 5).toNat + (0x1FF : BitVec 16).toNat * 2 ^ 5) ∧
    ¬ Canonical 4 ((0xF : BitVec 4).toNat + (0x1FFFF : BitVec 24).toNat * 2 ^ 4) ∧
    ¬ Canonical 5 ((7 : BitVec 3).toNat + (0x1FFFFFF : BitVec 32).toNat * 2 ^ 3) ∧
    ¬ Canonical 6 ((3 : BitVec 2).toNat + (0x1FFFFFFFF : BitVec 40).toNat * 2 ^ 2) ∧
    ¬ Canonical 7 ((1 : BitVec 1).toNat + (0x1FFFFFFFFFF : BitVec 48).toNat * 2 ^ 1) ∧
    ¬ Canonical 8 (0x1FFFFFFFFFFFF : BitVec 56).toNat ∧ ¬ Canonical 9 (0xFFFFFFFFFFFFFF : BitVec 64).toNat := by decide
-- WireClassAnswersAsDecOfItsBytes, WellFormedWireClassSucceeds, WireStreamIsSelfDelimiting
theorem witness_wire_bytes : encode (.wireL2 0 2) = .wire [0x80, 0x02] ∧
    (Instr.wireL2 0 2).wellFormed State.reset.config = true := by decide
-- WireDecodingLosesNothing
theorem witness_wire_decoded : decodeWire [0x80, 0x02, 0x99] = .ok (.wireL2 0 2, [0x99]) := by decide
-- EveryStepKeepsTheRegistersLegal: a state with an encoding in RBUF, and its next
theorem witness_legal : (after (.enc 300)).Legal where
  statusWritten := by decide
  lengthWritten := by decide
  errorsCarryNothing := by decide
  zeroAboveLength := by decide
  bufferCanonical := by decide
theorem witness_legal_step : step (presentFirst (.request 0x0C) (after (.enc 300))) =
    .next (raise .illegalOp (after (.enc 300))) := by rfl
-- StreamReadNeverMeetsTruncated: a stream with a value and a rest, and one that runs dry
theorem witness_stream_read : (hostReadOne [0x80, 0x02, 0x99] State.reset).map Prod.snd = some [0x99] := by decide
theorem witness_stream_dry : hostReadOne [0x80] State.reset = none ∧ Announces (([0x80] : List Byte).headD 0).toNat 2 := by
  decide
-- ContainerFromASliceHoldsItsEncoding: a slice that decodes and one that does not
theorem witness_container : exec (asmDec [0x80, 2, 7]) State.reset = .next (after (asmDec [0x80, 2, 7])) ∧
    exec (asmDec [0x80]) State.reset = .next (after (asmDec [0x80])) := ⟨by rfl, by rfl⟩
theorem witness_container_status : (after (asmDec [0x80, 2, 7])).rstat.toNat = 0 ∧ (after (asmDec [0x80])).rstat.toNat ≠ 0 := by
  decide
-- SignedStreamFollowsTheUnsignedOne, SignedHostSequencesWithoutTheUnit: -65 is 81 02 on the wire (R189, R163), and
-- without the unit its host sequences end with IllegalOp (log entry 17)
theorem test_signed_stream : (hostWriteOneSigned (-65) State.reset).map Prod.snd = some [0x81, 0x02] ∧
    (hostReadOneSigned [0x81, 0x02, 0x99] State.reset).map (fun x => (x.1.rval, x.2)) = some (-65, [0x99]) ∧
    hostReadOneSigned [0x81] State.reset = none := by decide
theorem test_signed_host_without_unit : (hostEncleni 0 plainState).map State.rstat = some 3 ∧
    hostWriteOneSigned (-65) plainState = some (raise .illegalOp plainState, []) := by decide
theorem witness_stream_read_plain : (hostReadOne [0x80, 0x02, 0x99] plainState).map Prod.snd = some [0x99] := by decide

end Sys2Proof.Tests
end

section
/-! PROOFS. The registers after reset (10_state.md section 1). -/

namespace Sys2Proof.Machine

open Sys2Proof

/-- Reset leaves every response register at its reset value, whatever the registers held (10_state.md R33,
70_reset_and_hazards.md R200). -/
theorem resetRegisters_shows_zeros (s : State) : Shows (resetRegisters s) 0 0 0 noBytes :=
  have status : (resetRegisters s).rstat.toNat = 0 := by simp
  have length : (resetRegisters s).rlen.toNat = 0 := by simp
  have value : (resetRegisters s).rval.toNat = 0 := by simp
  have bytes : ∀ i < 9, (bufByte (resetRegisters s).rbuf i).toNat = noBytes i := fun i _ => by simp [noBytes]
  ⟨status, length, value, bytes⟩

/-- The state after reset is a fixed point of `resetRegisters`: it is already what a reset makes of it. -/
theorem resetRegisters_resetOf (c : Config) : resetRegisters (State.resetOf c) = State.resetOf c :=
  resetOf_eq (State.resetOf c) c rfl rfl

/-- A block of any build shows the reset values right after reset (10_state.md R33). -/
theorem resetOf_shows_zeros (c : Config) : Shows (State.resetOf c) 0 0 0 noBytes := by
  rw [← resetRegisters_resetOf c]
  exact resetRegisters_shows_zeros _

/-- Settles O1: every build shows the reset values, and `State.reset` is the block of the default build. -/
theorem resetClearsEveryRegister : Obligations.ResetClearsEveryRegister :=
  ⟨resetOf_shows_zeros, resetOf_shows_zeros Config.standard⟩

end Sys2Proof.Machine
end

section
/-! PROOFS. The register fields of the response vector, and the prefix function (30_encoding.md R71, R64). -/

namespace Sys2Proof.Machine

open Sys2Proof

/-! ### Bytes of a little-endian number, bits of a field -/

/-- Byte `i` of the number a byte list forms is the list's byte `i`, zero above its end (00_scope.md R10). -/
theorem leNat_div_mod (bytes : List Byte) (i : Nat) :
    leNat bytes / 2 ^ (8 * i) % 256 = (bytes.getD i 0).toNat := by
  induction bytes generalizing i with
  | nil => simp [leNat]
  | cons b bs ih =>
    have hb := b.isLt
    cases i with
    | zero => simp only [leNat, List.getD_cons_zero]; omega
    | succ i =>
      have tail : (b.toNat + 256 * leNat bs) / 256 = leNat bs := by omega
      have place : 2 ^ (8 * (i + 1)) = 256 * 2 ^ (8 * i) := by rw [Nat.mul_add, Nat.pow_add, Nat.mul_comm]
      rw [leNat, place, ← Nat.div_div_eq_div_mul, tail, ih, List.getD_cons_succ]

/-- Byte `i` of the number formed by a whole buffer is the buffer's byte `i`. -/
theorem leNat_bufSlice_div_mod (B : Buf) {i : Nat} (hi : i < 9) :
    leNat (bufSlice B 0 9) / 2 ^ (8 * i) % 256 = (bufByte B i).toNat := by
  rw [leNat_div_mod]
  simp [bufSlice, hi]

/-- Bits `b` to `b + n - 1` of a field that starts at bit `a` stand at bit `a + b` of the vector. -/
theorem extractLsb'_of_field {w a m b n : Nat} {x : BitVec w} (h : b + n ≤ m) :
    (x.extractLsb' a m).extractLsb' b n = x.extractLsb' (a + b) n := by
  ext i hi
  have inside : b + i < m := by omega
  simp [inside, Nat.add_assoc]

/-! ### The fields of the response vector -/

variable (s : State)

/-- The sum of the shifted registers fits in 144 bits, so the response vector is that sum. -/
theorem responseVector_toNat : (responseVector s).toNat =
    s.rstat.toNat + 2 ^ 4 * s.rlen.toNat + 2 ^ 8 * s.rval.toNat + 2 ^ 72 * leNat (bufSlice s.rbuf 0 9) := by
  have hstat := s.rstat.isLt
  have hlen := s.rlen.isLt
  have hval := s.rval.isLt
  have hbuf := leNat_bufSlice_lt s.rbuf
  rw [responseVector, BitVec.toNat_ofNat]
  omega

/-- `RSP[3:0]` is `RSTAT`. -/
theorem responseVector_rstat : (responseVector s).extractLsb' 0 4 = s.rstat := by
  have hstat := s.rstat.isLt
  refine BitVec.eq_of_toNat_eq ?_
  simp only [BitVec.extractLsb'_toNat, responseVector_toNat, Nat.shiftRight_eq_div_pow]
  omega

/-- `RSP[7:4]` is `RLEN`. -/
theorem responseVector_rlen : (responseVector s).extractLsb' 4 4 = s.rlen := by
  have hstat := s.rstat.isLt
  have hlen := s.rlen.isLt
  refine BitVec.eq_of_toNat_eq ?_
  simp only [BitVec.extractLsb'_toNat, responseVector_toNat, Nat.shiftRight_eq_div_pow]
  omega

/-- `RSP[71:8]` is `RVAL`. -/
theorem responseVector_rval : (responseVector s).extractLsb' 8 64 = s.rval := by
  have hstat := s.rstat.isLt
  have hlen := s.rlen.isLt
  have hval := s.rval.isLt
  refine BitVec.eq_of_toNat_eq ?_
  simp only [BitVec.extractLsb'_toNat, responseVector_toNat, Nat.shiftRight_eq_div_pow]
  omega

/-- Above `RVAL`, from bit 72, the response vector is the number the nine `RBUF` bytes form. -/
theorem responseVector_div_rbuf : (responseVector s).toNat / 2 ^ 72 = leNat (bufSlice s.rbuf 0 9) := by
  have hstat := s.rstat.isLt
  have hlen := s.rlen.isLt
  have hval := s.rval.isLt
  rw [responseVector_toNat]
  omega

/-- `RSP[79+8i:72+8i]` is `RBUF[i]`. -/
theorem responseVector_rbuf {i : Nat} (hi : i < 9) :
    (responseVector s).extractLsb' (72 + 8 * i) 8 = bufByte s.rbuf i := by
  refine BitVec.eq_of_toNat_eq ?_
  rw [BitVec.extractLsb'_toNat, Nat.shiftRight_eq_div_pow, Nat.pow_add, ← Nat.div_div_eq_div_mul,
    responseVector_div_rbuf]
  exact leNat_bufSlice_div_mod s.rbuf hi

/-! ### The bytes of the response vector -/

/-- Byte 0 is `{RLEN, RSTAT}`: the two lowest fields side by side. -/
theorem responseVector_byte_zero :
    ((responseVector s).extractLsb' 0 8).toNat = 16 * s.rlen.toNat + s.rstat.toNat := by
  rw [← responseVector_rlen, ← responseVector_rstat]
  simp only [BitVec.extractLsb'_toNat, Nat.shiftRight_eq_div_pow]
  omega

/-- Bytes 1 to 8 are the little-endian bytes of `RVAL`: byte `j` of a field at bit 8 is byte `j + 1` of the vector. -/
theorem responseVector_byte_rval {j : Nat} (hj : j < 8) :
    ((responseVector s).extractLsb' (8 * (j + 1)) 8).toNat = s.rval.toNat / 2 ^ (8 * j) % 256 := by
  have field : 8 * (j + 1) = 8 + 8 * j := by omega
  have inside : 8 * j + 8 ≤ 64 := by omega
  rw [field, ← extractLsb'_of_field inside, responseVector_rval, BitVec.extractLsb'_toNat, Nat.shiftRight_eq_div_pow]

/-- Settles O11: the four fields lie at the bits R71 lists, and its byte view is read off the fields. -/
theorem responseVectorHoldsTheRegisters : Obligations.ResponseVectorHoldsTheRegisters := by
  intro s
  refine ⟨responseVector_rstat s, responseVector_rlen s, responseVector_rval s,
    fun i hi => responseVector_rbuf s hi, responseVector_byte_zero s, fun k h1 h8 => ?_, fun k h9 h17 => ?_⟩
  · obtain ⟨j, rfl⟩ := Nat.exists_eq_add_of_le' h1
    exact responseVector_byte_rval s (by omega)
  · obtain ⟨i, rfl⟩ := Nat.exists_eq_add_of_le h9
    rw [Nat.mul_add, Nat.add_sub_cancel_left]
    exact responseVector_rbuf s (by omega)

/-! ### The prefix function -/

/-- The one bits of `0xFF00` are bits 8 to 15; the shift by `L - 1` brings `L - 1` of them into the low byte. -/
theorem prefixByte_getLsbD {L j : Nat} (h1 : 1 ≤ L) (h9 : L ≤ 9) (hj : j < 8) :
    (prefixByte L).getLsbD j = decide (9 - L ≤ j) := by
  have ones : (0xFF00 : Nat) = (2 ^ 8 - 1) <<< 8 := by decide
  rw [prefixByte, BitVec.getLsbD_ofNat, ones, Nat.testBit_shiftRight, Nat.testBit_shiftLeft,
    Nat.testBit_two_pow_sub_one, Bool.eq_iff_iff]
  simp only [Bool.and_eq_true, decide_eq_true_eq]
  omega

/-- `prefix(L)` is the match column of row `L` of the first-byte patterns (30_encoding.md R60, R64). -/
theorem prefixByte_eq_match {L : Nat} (h1 : 1 ≤ L) (h9 : L ≤ 9) :
    prefixByte L = (wireRows.getD (L - 1) (0, 0)).2 := by
  interval_cases L <;> rfl

/-- Settles O18: the bits of `prefix(L)`, and its row in the table of R60. -/
theorem prefixFunctionOfEachLength : Obligations.PrefixFunctionOfEachLength :=
  fun _ h9 h1 => ⟨fun _ hj => prefixByte_getLsbD h1 h9 hj, prefixByte_eq_match h1 h9⟩

end Sys2Proof.Machine
end

section
/-! PROOFS. The length operations `ENCLEN` and `DECLEN`, and that they agree with `ENC` (40_length.md R96 to R98). -/

namespace Sys2Proof.Machine

open Sys2Proof

/-! ### Which request selects an operation -/

/-- The operation select is the low four bits of the request (30_encoding.md R70). -/
theorem reqOp_toNat (r : BitVec 152) : (reqOp r).toNat = r.toNat % 16 := by
  simp [reqOp, BitVec.extractLsb'_toNat]

/-- Selection depends on the `op` field alone, so it is settled by the row `decodeRequest` has for `k`. -/
theorem selectedBy_of_decodeRequest {k : Nat} {f : BitVec 152 → Instr}
    (row : ∀ r, (reqOp r).toNat = k → decodeRequest r = f r) : SelectedBy k f := by
  intro r hr
  have hop : (reqOp r).toNat = k := (reqOp_toNat r).trans hr
  rw [decode, row r hop]

/-- `op` 0 is `ENCLEN` of the field `a` (30_encoding.md R72, R73). -/
theorem selectedBy_enclen : SelectedBy 0 (fun r => .enclen (r.extractLsb' 16 64)) :=
  selectedBy_of_decodeRequest fun r hop => by rw [decodeRequest, hop]; rfl

/-- `op` 1 is `DECLEN` of the field `fb` (30_encoding.md R72, R73). -/
theorem selectedBy_declen : SelectedBy 1 (fun r => .declen (r.extractLsb' 8 8)) :=
  selectedBy_of_decodeRequest fun r hop => by rw [decodeRequest, hop]; rfl

/-! ### What the two operations answer -/

/-- An operation is a function of the state, so what it answers is what its one next state shows. -/
theorem answers_iff_of_next {i : Instr} {s t : State} {stat len val : Nat} {buf : Nat → Nat}
    (h : exec i s = .next t) : Answers i s stat len val buf ↔ Shows t stat len val buf := by
  constructor
  · rintro ⟨t', ht', shows⟩
    obtain rfl : t = t' := by simpa [h] using ht'
    exact shows
  · exact fun shows => ⟨t, h, shows⟩

/-- A response that carries a length of 9 at most shows that length, and zeros elsewhere: four bits hold it. -/
theorem shows_okLen_iff {L : Nat} (h9 : L ≤ 9) (s : State) (len : Nat) :
    Shows (respond (okLen L) s) 0 len 0 noBytes ↔ L = len := by
  have fits : L % 16 = L := Nat.mod_eq_of_lt (by omega)
  simp [Shows, okLen, statusOk, noBytes, fits]

/-- `ENCLEN`'s next state, for an operand whose least length is `L`. -/
theorem exec_enclen_next {a : Word} {L : Nat} (h : LeastLen a.toNat L) (s : State) :
    exec (.enclen a) s = .next (respond (okLen L) s) := by
  rw [leastLen_unique h (encodedLen_least a)]
  rfl

/-- `ENCLEN` answers a length exactly if it is the operand's least length (40_length.md R96). -/
theorem answers_enclen_iff {a : Word} {s : State} {L : Nat} :
    Answers (.enclen a) s 0 L 0 noBytes ↔ LeastLen a.toNat L := by
  have least := encodedLen_least a
  rw [answers_iff_of_next (exec_enclen_next least s), shows_okLen_iff least.2.1]
  exact ⟨fun h => h ▸ least, fun h => leastLen_unique least h⟩

/-- `DECLEN` answers a length exactly if the byte announces it (40_length.md R97). -/
theorem answers_declen_iff {fb : Byte} {s : State} {L : Nat} :
    Answers (.declen fb) s 0 L 0 noBytes ↔ Announces fb.toNat L := by
  have announces := decodedLen_announces fb
  rw [answers_iff_of_next (exec_declen_next announces s), shows_okLen_iff announces.2.1]
  exact ⟨fun h => h ▸ announces, fun h => announces_unique announces h⟩

/-- Settles O12: `op` 0 selects `ENCLEN`, and its answer is `encoded_len`, the least length. -/
theorem enclenAnswersTheLeastLength : Obligations.EnclenAnswersTheLeastLength :=
  ⟨selectedBy_enclen, fun a _ => ⟨encodedLen a, encodedLen_least a, answers_enclen_iff.mpr (encodedLen_least a)⟩⟩

/-- Settles O14: `op` 1 selects `DECLEN`, and its answer is `decoded_len`, the announced length. -/
theorem declenAnswersTheAnnouncedLength : Obligations.DeclenAnswersTheAnnouncedLength :=
  ⟨selectedBy_declen,
    fun fb _ => ⟨decodedLen fb, decodedLen_announces fb, answers_declen_iff.mpr (decodedLen_announces fb)⟩⟩

/-! ### Agreement with the encoder -/

/-- The first byte of the layout announces the length class: its top `L - 1` bits are one, and the payload
bits stay below the zero bit that ends them; lengths 8 and 9 carry no payload there (30_encoding.md R60). -/
theorem layoutByte_zero_announces {v L : Nat} (h : LeastLen v L) : Announces (layoutByte L v 0) L := by
  obtain ⟨h1, h9, upper, -⟩ := h
  rcases Nat.lt_or_ge L 8 with h7 | h8
  · have holds : v < 2 ^ (7 * L) := upper (by omega)
    interval_cases L <;> simp [layoutByte] at holds ⊢ <;> omega
  · interval_cases L <;> simp [layoutByte, Announces]

/-- The first byte `encode` writes announces the least length of the value: `encoded_len(v) = decoded_len(encode(v)[0])`
by value (40_length.md R98). -/
theorem encodeValue_head_announces {a : Word} {L : Nat} (h : LeastLen a.toNat L) :
    Announces (bufByte (bufOfList (encodeValue a)) 0).toNat L := by
  rw [bufByte_bufOfList _ (by decide), encodeValue_getD, ← leastLen_unique h (encodedLen_least a)]
  exact layoutByte_zero_announces h

/-- `ENC` completes with the encoding's bytes (41_encode.md R110). -/
theorem exec_enc_next (a : Word) (s : State) : exec (.enc a) s = .next (respond (okBytes (encodeValue a)) s) := rfl

/-- `ENC` shows `encoded_len` in `RLEN`. -/
theorem respond_encodeValue_rlen (a : Word) (s : State) :
    (respond (okBytes (encodeValue a)) s).rlen.toNat = encodedLen a := by
  have h9 := (encodedLen_least a).2.1
  rw [respond_rlen, okBytes, encodeValue_length, BitVec.toNat_ofNat]
  omega

/-! ### The range of the two lengths -/

/-- `2^(7(L-1))`, the least canonical value of each length class (42_decode.md R128), has length `L`. -/
theorem leastLen_of_class_minimum {L : Nat} (h1 : 1 ≤ L) (h9 : L ≤ 9) :
    LeastLen (BitVec.ofNat 64 (2 ^ (7 * (L - 1)))).toNat L := by
  have fits : 2 ^ (7 * (L - 1)) < 2 ^ 64 := Nat.pow_lt_pow_right (by decide) (by omega)
  have below : 2 ^ (7 * (L - 1)) < 2 ^ (7 * L) := Nat.pow_lt_pow_right (by decide) (by omega)
  rw [BitVec.toNat_ofNat, Nat.mod_eq_of_lt fits]
  exact ⟨h1, h9, fun _ => below, fun _ => Nat.le_refl _⟩

/-- The least lengths of the 64-bit values are exactly 1 to 9. -/
theorem exists_leastLen_iff {L : Nat} : (1 ≤ L ∧ L ≤ 9) ↔ ∃ a : Word, LeastLen a.toNat L :=
  ⟨fun ⟨h1, h9⟩ => ⟨_, leastLen_of_class_minimum h1 h9⟩, fun ⟨_, h1, h9, _⟩ => ⟨h1, h9⟩⟩

/-- The lengths the bytes announce are exactly 1 to 9: each is announced by the first byte of an encoding. -/
theorem exists_announces_iff {L : Nat} : (1 ≤ L ∧ L ≤ 9) ↔ ∃ fb : Byte, Announces fb.toNat L := by
  constructor
  · intro range
    obtain ⟨a, least⟩ := exists_leastLen_iff.mp range
    exact ⟨_, encodeValue_head_announces least⟩
  · exact fun ⟨_, h1, h9, _⟩ => ⟨h1, h9⟩

/-- Settles O15: `encoded_len` is what `ENC` and `ENCLEN` answer and what the first byte of the encoding announces to
`DECLEN`; each of 1 to 9 is the length of the least value of its class, hence of that value's first byte. -/
theorem lengthFunctionsAgree : Obligations.LengthFunctionsAgree := by
  refine ⟨fun a s => ?_, fun s L => ?_, fun s L => ?_⟩
  · have least := encodedLen_least a
    exact ⟨_, encodedLen a, least, exec_enc_next a s, respond_encodeValue_rlen a s, answers_enclen_iff.mpr least,
      answers_declen_iff.mpr (encodeValue_head_announces least)⟩
  · simp only [answers_enclen_iff, exists_leastLen_iff]
  · simp only [answers_declen_iff, exists_announces_iff]

end Sys2Proof.Machine
end

section
/-! PROOFS. The encode operation `ENC` (41_encode.md R110 to R116). -/

namespace Sys2Proof.Machine

open Sys2Proof

/-- `op` 2 is `ENC` of the field `a` (30_encoding.md R72, R73). -/
theorem selectedBy_enc : SelectedBy 2 (fun r => .enc (r.extractLsb' 16 64)) :=
  selectedBy_of_decodeRequest fun r hop => by rw [decodeRequest, hop]; rfl

/-- Byte `i` of the result registers after an encode is byte `i` of the canonical layout of the value's length class,
zeros above the encoding included (41_encode.md R112 to R116). -/
theorem respond_encodeValue_rbuf (a : Word) (s : State) {i : Nat} (hi : i < 9) :
    (bufByte (respond (okBytes (encodeValue a)) s).rbuf i).toNat = layoutByte (encodedLen a) a.toNat i := by
  rw [respond_rbuf, okBytes, bufByte_bufOfList _ hi, encodeValue_getD]

/-- The response that carries `encode(a)` shows `OK`, the encoded length, no value, and the layout's bytes. -/
theorem shows_encodeValue (a : Word) (s : State) :
    Shows (respond (okBytes (encodeValue a)) s) 0 (encodedLen a) 0 (layoutByte (encodedLen a) a.toNat) :=
  have status : (respond (okBytes (encodeValue a)) s).rstat.toNat = 0 := rfl
  have value : (respond (okBytes (encodeValue a)) s).rval.toNat = 0 := rfl
  ⟨status, respond_encodeValue_rlen a s, value, fun _ hi => respond_encodeValue_rbuf a s hi⟩

/-- `ENC` answers with the canonical layout of the least length that holds its operand. -/
theorem answers_enc {a : Word} {L : Nat} (least : LeastLen a.toNat L) (s : State) :
    Answers (.enc a) s 0 L 0 (layoutByte L a.toNat) := by
  rw [leastLen_unique least (encodedLen_least a)]
  exact ⟨_, exec_enc_next a s, shows_encodeValue a s⟩

/-- Settles O19: `op` 2 selects `ENC`, and the class of its answer is `encoded_len`, the least length. -/
theorem encAnswersTheCanonicalEncoding : Obligations.EncAnswersTheCanonicalEncoding :=
  ⟨selectedBy_enc, fun a s => ⟨encodedLen a, encodedLen_least a, answers_enc (encodedLen_least a) s⟩⟩

end Sys2Proof.Machine
end

section
/-! PROOFS. The unsigned decode operations `DEC`, `DECS` and `DECP` (42_decode.md R135 to R138). -/

namespace Sys2Proof.Machine

open Sys2Proof

/-! ### Which request selects a decode -/

/-- `op` 3 is `DEC` of the fields `n` and `IBUF` (30_encoding.md R72, R73). -/
theorem selectedBy_dec :
    SelectedBy 3 (fun r => .dec (r.extractLsb' 4 4) (bufOfFn fun i => r.extractLsb' (80 + 8 * i) 8)) :=
  selectedBy_of_decodeRequest fun r hop => by rw [decodeRequest, hop]; rfl

/-- `op` 4 is `DECS` of the fields `n`, `fb` and `IBUF` (30_encoding.md R72, R73). -/
theorem selectedBy_decs :
    SelectedBy 4 (fun r =>
      .decs (r.extractLsb' 4 4) (r.extractLsb' 8 8) (bufOfFn fun i => r.extractLsb' (80 + 8 * i) 8)) :=
  selectedBy_of_decodeRequest fun r hop => by rw [decodeRequest, hop]; rfl

/-- `op` 5 is `DECP` of the fields `fb` and `a` (30_encoding.md R72, R73). -/
theorem selectedBy_decp : SelectedBy 5 (fun r => .decp (r.extractLsb' 8 8) (r.extractLsb' 16 64)) :=
  selectedBy_of_decodeRequest fun r hop => by rw [decodeRequest, hop]; rfl

/-! ### Each decode delivers the result of its entry point -/

theorem exec_dec_eq_deliver (n : BitVec 4) (B : Buf) (s : State) :
    exec (.dec n B) s = deliver (decodeSlice n.toNat B) s := rfl

theorem exec_decs_eq_deliver (n : BitVec 4) (fb : Byte) (B : Buf) (s : State) :
    exec (.decs n fb B) s = deliver (decodeSplit n.toNat fb B) s := rfl

theorem exec_decp_eq_deliver (fb : Byte) (w : Word) (s : State) :
    exec (.decp fb w) s = deliver (decodePacked fb w) s := rfl

theorem exec_decpi_eq_withSigned (fb : Byte) (w : Word) (s : State) :
    exec (.decpi fb w) s = withSigned (deliver (signedResult (decodePacked fb w))) s := rfl

/-! ### What a delivered result shows -/

section Delivered

variable {i : Instr} {s : State}

/-- A delivered success shows the value and its length, which four bits hold. -/
theorem answers_of_deliver_ok {L : Nat} {val : Word} (h9 : L ≤ 9)
    (h : exec i s = deliver (.ok { len := L, val := val }) s) : Answers i s 0 L val.toNat noBytes := by
  have fits : L % 16 = L := Nat.mod_eq_of_lt (by omega)
  rw [deliver_eq] at h
  rw [answers_iff_of_next h]
  simp [Shows, resultResponse, okDecoded, statusOk, noBytes, fits]

/-- A delivered error shows the code of its kind and zeros (60_exceptions.md R181). -/
theorem answers_of_deliver_error {k : ErrKind} (h : exec i s = deliver (.error k) s) :
    Answers i s k.code.toNat 0 0 noBytes := by
  rw [deliver_eq] at h
  rw [answers_iff_of_next h]
  simp [Shows, resultResponse, errResponse, noBytes]

/-- An operation that delivers the shared end of the decoder has its two outcomes; `val` is what it delivers of the
unpacked value `v` (42_decode.md R132, steps 4 to 6). -/
theorem answersUnpacked_of_deliver {L v : Nat} {val : Word} {out : Nat → Nat} (h9 : L ≤ 9)
    (hval : val.toNat = out v)
    (h : exec i s =
      deliver (if Canonical L v then .ok { len := L, val := val } else .error .redundantEncode) s) :
    AnswersUnpacked i s L v out := by
  refine ⟨fun canonical => ?_, fun redundant => ?_⟩
  · rw [if_pos canonical] at h
    exact hval ▸ answers_of_deliver_ok h9 h
  · rw [if_neg redundant] at h
    exact answers_of_deliver_error h

/-- An operation that tests whether its `n` bytes reach `m`, then delivers the shared end, has the three outcomes of a
decode (42_decode.md R132). -/
theorem answersDecode_of_deliver {n m L v : Nat} {val : Word} {out : Nat → Nat} (h9 : L ≤ 9)
    (hval : val.toNat = out v)
    (h : exec i s =
      deliver (if n < m then .error .truncated
        else if Canonical L v then .ok { len := L, val := val } else .error .redundantEncode) s) :
    AnswersDecode i s (m ≤ n) L v out := by
  refine ⟨fun short => ?_, fun complete => ?_⟩
  · rw [if_pos (Nat.lt_of_not_le short)] at h
    exact answers_of_deliver_error h
  · rw [if_neg (Nat.not_lt.mpr complete)] at h
    exact answersUnpacked_of_deliver h9 hval h

end Delivered

/-! ### The value each entry point unpacks -/

/-- `k` bytes of the request buffer form a number below `2^(8k)`. -/
theorem memRead_lt (B : Buf) (i k : Nat) : (memRead B i k).toNat < 2 ^ (8 * k) := by
  have bound := leNat_lt (bufSlice B i k)
  rw [bufSlice_length] at bound
  rw [memRead, packLe, BitVec.toNat_ofNat]
  exact Nat.lt_of_le_of_lt (Nat.mod_le _ _) bound

/-- The slice form unpacks `IBUF[0]` with the number of the `L - 1` bytes after it (42_decode.md R135). -/
theorem unpack_sliceFollow_toNat {L : Nat} (h1 : 1 ≤ L) (h9 : L ≤ 9) (B : Buf) :
    (unpack L (bufByte B 0) (sliceFollow B L)).toNat = slicePayload L B := by
  rw [sliceFollow, unpack_toNat h1 _ _ fun _ => memRead_lt B 1 (L - 1), memRead_toNat B 1 (by omega), slicePayload]
  simp only [Nat.add_comm 1]

/-- The split form unpacks `fb` with the number of the first `L - 1` bytes of the buffer (42_decode.md R136). -/
theorem unpack_splitFollow_toNat {L : Nat} (h1 : 1 ≤ L) (h9 : L ≤ 9) (fb : Byte) (B : Buf) :
    (unpack L fb (splitFollow B L)).toNat =
      payload L fb.toNat (followNumber (fun j => (bufByte B j).toNat) (L - 1)) := by
  rw [splitFollow, unpack_toNat h1 _ _ fun _ => memRead_lt B 0 (L - 1), memRead_toNat B 0 (by omega)]
  simp only [Nat.zero_add]

/-- The packed form unpacks `fb` with the low `8(L-1)` bits of the word (42_decode.md R137, R138). -/
theorem unpack_packedFollow_toNat {L : Nat} (h1 : 1 ≤ L) (fb : Byte) (w : Word) :
    (unpack L fb (packedFollow w L)).toNat = payload L fb.toNat (w.toNat % 2 ^ (8 * (L - 1))) := by
  have bound : (packedFollow w L).toNat < 2 ^ (8 * (L - 1)) := by
    rw [packedFollow_toNat]
    exact Nat.mod_lt _ (Nat.two_pow_pos _)
  rw [unpack_toNat h1 _ _ fun _ => bound, packedFollow_toNat]

/-! ### What each decode answers -/

/-- `DEC`'s answer, for a slice whose first byte announces length `L`. -/
theorem answersDecode_dec {B : Buf} {L : Nat} (h : Announces (bufByte B 0).toNat L) (n : BitVec 4) (s : State) :
    AnswersDecode (.dec n B) s (L ≤ n.toNat) L (slicePayload L B) (fun v => v) := by
  obtain ⟨h1, h9, -⟩ := id h
  exact answersDecode_of_deliver h9 (unpack_sliceFollow_toNat h1 h9 B) (by rw [exec_dec_eq_deliver, decodeSlice_eq h])

/-- No first byte announces length 0, so an empty slice is short of every length (42_decode.md R134). -/
theorem answers_dec_empty (B : Buf) (s : State) : Answers (.dec 0 B) s 1 0 0 noBytes := by
  have announces := decodedLen_announces (bufByte B 0)
  exact (answersDecode_dec announces 0 s).1 (Nat.not_le.mpr announces.1)

/-- `DECS`'s answer, for a first byte that announces length `L`. -/
theorem answersDecode_decs {fb : Byte} {L : Nat} (h : Announces fb.toNat L) (n : BitVec 4) (B : Buf) (s : State) :
    AnswersDecode (.decs n fb B) s (L - 1 ≤ n.toNat) L
      (payload L fb.toNat (followNumber (fun j => (bufByte B j).toNat) (L - 1))) (fun v => v) := by
  obtain ⟨h1, h9, -⟩ := id h
  exact answersDecode_of_deliver h9 (unpack_splitFollow_toNat h1 h9 fb B)
    (by rw [exec_decs_eq_deliver, decodeSplit_eq h])

/-- `DECP`'s answer, for a first byte that announces length `L`: it has no test that could find it truncated. -/
theorem answersUnpacked_decp {fb : Byte} {L : Nat} (h : Announces fb.toNat L) (w : Word) (s : State) :
    AnswersUnpacked (.decp fb w) s L (payload L fb.toNat (w.toNat % 2 ^ (8 * (L - 1)))) (fun v => v) := by
  obtain ⟨h1, h9, -⟩ := id h
  exact answersUnpacked_of_deliver h9 (unpack_packedFollow_toNat h1 fb w)
    (by rw [exec_decp_eq_deliver, decodePacked_eq h])

/-- Settles O21: `op` 3 selects `DEC`, which has the three outcomes of a decode over its slice. -/
theorem decAnswersItsSlice : Obligations.DecAnswersItsSlice :=
  ⟨selectedBy_dec, answers_dec_empty, fun n _ s _ announces => answersDecode_dec announces n s⟩

/-- Settles O22: `op` 4 selects `DECS`, which has the three outcomes of a decode over `fb` and its follow bytes. -/
theorem decsAnswersItsSplitInput : Obligations.DecsAnswersItsSplitInput :=
  ⟨selectedBy_decs, fun n _ B s _ announces => answersDecode_decs announces n B s⟩

/-- Settles O23: `op` 5 selects `DECP`, which has the two outcomes of a decode that has all its bytes. -/
theorem decpAnswersItsPackedInput : Obligations.DecpAnswersItsPackedInput :=
  ⟨selectedBy_decp, fun _ w s _ announces => answersUnpacked_decp announces w s⟩

/-! ### The bytes of the follow word that no decode reads -/

/-- The mask lets through only the low `8(L-1)` bits of the word (42_decode.md R138). -/
theorem packedFollow_eq_of_mod_eq {w w' : Word} {L : Nat}
    (h : w.toNat % 2 ^ (8 * (L - 1)) = w'.toNat % 2 ^ (8 * (L - 1))) : packedFollow w L = packedFollow w' L := by
  refine BitVec.eq_of_toNat_eq ?_
  rw [packedFollow_toNat, packedFollow_toNat, h]

/-- `decode_packed` reads its follow word through the mask alone. -/
theorem decodePacked_eq_of_mod_eq {fb : Byte} {w w' : Word} {L : Nat} (announces : Announces fb.toNat L)
    (h : w.toNat % 2 ^ (8 * (L - 1)) = w'.toNat % 2 ^ (8 * (L - 1))) : decodePacked fb w = decodePacked fb w' := by
  rw [decodePacked_eq announces, decodePacked_eq announces, h, packedFollow_eq_of_mod_eq h]

/-- Settles O24: `DECP` and `DECPI` use their operands through `decode_packed` only, which masks the word. -/
theorem packedHighBytesAreIgnored : Obligations.PackedHighBytesAreIgnored := by
  intro fb w w' s L announces agree
  have same := decodePacked_eq_of_mod_eq announces agree
  refine ⟨?_, ?_⟩
  · rw [exec_decp_eq_deliver, exec_decp_eq_deliver, same]
  · rw [exec_decpi_eq_withSigned, exec_decpi_eq_withSigned, same]

end Sys2Proof.Machine
end

section
/-! PROOFS. The signed operations, and the gate of the zigzag unit (43_zigzag_signed.md R159 to R163, R166). -/

namespace Sys2Proof.Machine

open Sys2Proof

/-! ### The gate of the zigzag unit -/

/-- Where the unit exists the gate lets the operation through. -/
theorem withSigned_of_hasSigned {s : State} (hs : s.config.hasSigned = true)
    (m : State → Host.Outcome State Fault Refusal) : withSigned m s = m s :=
  ((withSigned_cases m s).resolve_right fun without => by simp [hs] at without).2

/-- Without the unit the gate answers `IllegalOp`, whatever the operation. -/
theorem withSigned_of_not_hasSigned {s : State} (hs : s.config.hasSigned = false)
    (m : State → Host.Outcome State Fault Refusal) : withSigned m s = .next (raise .illegalOp s) :=
  ((withSigned_cases m s).resolve_left fun present => by simp [hs] at present).2

/-- Each of the six signed operations stands behind the gate. -/
theorem exec_eq_withSigned_of_isSigned {i : Instr} (h : i.isSigned = true) :
    ∃ m, ∀ s, exec i s = withSigned m s := by
  cases i with
  | zzenc | zzdec | enci | deci | decsi | decpi => exact ⟨_, fun _ => rfl⟩
  | enclen | declen | enc | dec | decs | decp | reserved12 | reserved13 | reserved14 | reserved15
  | wireL1 | wireL2 | wireL3 | wireL4 | wireL5 | wireL6 | wireL7 | wireL8 | wireL9 => cases h

/-- A wire encoding of class 1 delivers the shared end of the decoder, without follow bytes (30_encoding.md R60). -/
theorem exec_wireL1_eq_deliver (x : BitVec 7) (s : State) :
    exec (.wireL1 x) s = deliver (finishDecode 1 (0b0#1 ++ x) 0) s := rfl

/-- Every other instruction writes a response that its operands alone determine: neither the build nor the registers
enter into it. -/
theorem exec_eq_respond_of_not_isSigned {i : Instr} (h : i.isSigned = false) :
    ∃ resp, ∀ s, exec i s = .next (respond resp s) := by
  cases i with
  | enclen | declen | enc | reserved12 | reserved13 | reserved14 | reserved15 => exact ⟨_, fun _ => rfl⟩
  | dec | decs | decp | wireL2 | wireL3 | wireL4 | wireL5 | wireL6 | wireL7 | wireL8 | wireL9 =>
    exact ⟨resultResponse _, fun s => deliver_eq _ s⟩
  | wireL1 x => exact ⟨resultResponse _, fun s => (exec_wireL1_eq_deliver x s).trans (deliver_eq _ s)⟩
  | zzenc | zzdec | enci | deci | decsi | decpi => cases h

/-- One response written over two states leaves the same response in both. -/
theorem sameResponse_respond (resp : Response) (s s' : State) : SameResponse (respond resp s) (respond resp s') :=
  ⟨rfl, rfl, rfl, rfl⟩

/-- An instruction that raises `IllegalOp` shows status 3 and zeros (60_exceptions.md R181). -/
theorem answers_of_illegalOp {i : Instr} {s : State} (h : exec i s = .next (raise .illegalOp s)) :
    Answers i s 3 0 0 noBytes :=
  answers_of_deliver_error (k := .illegalOp) h

/-- Settles O43: the gate closes the signed operations, and no other operation reads the build. -/
theorem withoutTheZigzagUnit : Obligations.WithoutTheZigzagUnit := by
  refine ⟨fun i s signed without => ?_, fun i _ s c _ unsigned => ?_⟩
  · obtain ⟨m, gated⟩ := exec_eq_withSigned_of_isSigned signed
    exact answers_of_illegalOp ((gated s).trans (withSigned_of_not_hasSigned without m))
  · obtain ⟨resp, completes⟩ := exec_eq_respond_of_not_isSigned unsigned
    exact ⟨_, _, completes s, completes _, sameResponse_respond resp s _⟩

/-! ### Which request selects a signed operation -/

/-- `op` 8 is `ENCI` of the field `a` (30_encoding.md R72, R73). -/
theorem selectedBy_enci : SelectedBy 8 (fun r => .enci (r.extractLsb' 16 64)) :=
  selectedBy_of_decodeRequest fun r hop => by rw [decodeRequest, hop]; rfl

/-- `op` 9 is `DECI` of the fields `n` and `IBUF` (30_encoding.md R72, R73). -/
theorem selectedBy_deci :
    SelectedBy 9 (fun r => .deci (r.extractLsb' 4 4) (bufOfFn fun i => r.extractLsb' (80 + 8 * i) 8)) :=
  selectedBy_of_decodeRequest fun r hop => by rw [decodeRequest, hop]; rfl

/-- `op` 10 is `DECSI` of the fields `n`, `fb` and `IBUF` (30_encoding.md R72, R73). -/
theorem selectedBy_decsi :
    SelectedBy 10 (fun r =>
      .decsi (r.extractLsb' 4 4) (r.extractLsb' 8 8) (bufOfFn fun i => r.extractLsb' (80 + 8 * i) 8)) :=
  selectedBy_of_decodeRequest fun r hop => by rw [decodeRequest, hop]; rfl

/-- `op` 11 is `DECPI` of the fields `fb` and `a` (30_encoding.md R72, R73). -/
theorem selectedBy_decpi : SelectedBy 11 (fun r => .decpi (r.extractLsb' 8 8) (r.extractLsb' 16 64)) :=
  selectedBy_of_decodeRequest fun r hop => by rw [decodeRequest, hop]; rfl

/-! ### The signed operations where the unit exists -/

section Present

variable {s : State} (hs : s.config.hasSigned = true)
include hs

/-- `ZZENC` completes with the zigzag image in `RVAL` (43_zigzag_signed.md R157). -/
theorem exec_zzenc_next (a : Word) : exec (.zzenc a) s = .next (respond (okVal (zigzagEncode a)) s) :=
  withSigned_of_hasSigned hs fun t => .next (respond (okVal (zigzagEncode a)) t)

/-- `ENCI` completes with the bytes of the zigzag image's encoding (43_zigzag_signed.md R159). -/
theorem exec_enci_next (a : Word) :
    exec (.enci a) s = .next (respond (okBytes (encodeValue (zigzagEncode a))) s) :=
  withSigned_of_hasSigned hs fun t => .next (respond (okBytes (encodeValue (zigzagEncode a))) t)

/-- `DECI` delivers `DEC`'s result after the zigzag step (43_zigzag_signed.md R160). -/
theorem exec_deci_eq_deliver (n : BitVec 4) (B : Buf) :
    exec (.deci n B) s = deliver (signedResult (decodeSlice n.toNat B)) s :=
  withSigned_of_hasSigned hs _

/-- `DECSI` delivers `DECS`'s result after the zigzag step (43_zigzag_signed.md R161). -/
theorem exec_decsi_eq_deliver (n : BitVec 4) (fb : Byte) (B : Buf) :
    exec (.decsi n fb B) s = deliver (signedResult (decodeSplit n.toNat fb B)) s :=
  withSigned_of_hasSigned hs _

/-- `DECPI` delivers `DECP`'s result after the zigzag step (43_zigzag_signed.md R162). -/
theorem exec_decpi_eq_deliver (fb : Byte) (w : Word) :
    exec (.decpi fb w) s = deliver (signedResult (decodePacked fb w)) s := by
  rw [exec_decpi_eq_withSigned, withSigned_of_hasSigned hs]

/-- `ZZENC` never fails, so the host goes on to `ENCLEN`, which writes the image's length (43_zigzag_signed.md R163). -/
theorem hostEncleni_eq (a : Word) :
    hostEncleni a s =
      some (respond (okLen (encodedLen (zigzagEncode a))) (respond (okVal (zigzagEncode a)) s)) := by
  have status : (respond (okVal (zigzagEncode a)) s).rstat = 0 := rfl
  have image : (respond (okVal (zigzagEncode a)) s).rval = zigzagEncode a := rfl
  rw [hostEncleni, exec_zzenc_next hs, thenHost_next, if_pos status, image, exec_enclen_next (encodedLen_least _),
    thenHost_next]

end Present

/-! ### `ENCI` and the signed encoded length -/

/-- Settles O35: `op` 8 selects `ENCI`, which writes the response `ENC` writes for the value `ZZENC` puts in `RVAL`. -/
theorem enciIsEncOfTheZigzagImage : Obligations.EnciIsEncOfTheZigzagImage := by
  refine ⟨selectedBy_enci, fun a s hs => ?_⟩
  obtain ⟨status, -⟩ := shows_encodeValue (zigzagEncode a) s
  exact ⟨_, _, exec_zzenc_next hs a, exec_enc_next (zigzagEncode a) s, exec_enci_next hs a, status⟩

/-- Settles O40: `ENCLEN` writes `encoded_len` of the zigzag image, and `ENCI` the number of bytes of the image's
encoding, which is the same. -/
theorem signedEncodedLengthIsReadTwoWays : Obligations.SignedEncodedLengthIsReadTwoWays := by
  intro a s hs
  have least := encodedLen_least (zigzagEncode a)
  obtain ⟨status, length, -⟩ := (shows_okLen_iff least.2.1 (respond (okVal (zigzagEncode a)) s) _).mpr rfl
  refine ⟨_, _, hostEncleni_eq hs a, exec_enci_next hs a, BitVec.eq_of_toNat_eq ?_, status, ?_⟩
  · rw [length, respond_encodeValue_rlen]
  · rwa [length]

/-! ### The signed decodes -/

/-- No error is reported as `OK` (60_exceptions.md R181). -/
theorem errKind_code_toNat_ne_zero (k : ErrKind) : k.code.toNat ≠ 0 := by
  cases k <;> decide

/-- Settles O38: a signed decode delivers its unsigned form's result after the zigzag step, which rewrites the value
of a success and leaves an error as it is. -/
theorem signedDecodesFollowTheUnsignedOnes : Obligations.SignedDecodesFollowTheUnsignedOnes := by
  refine ⟨selectedBy_deci, selectedBy_decsi, selectedBy_decpi, fun s hs i j pair => ?_⟩
  obtain ⟨r, unsigned, signed⟩ :
      ∃ r, exec i s = deliver r s ∧ exec j s = deliver (signedResult r) s := by
    rcases pair with ⟨n, B, rfl, rfl⟩ | ⟨n, fb, B, rfl, rfl⟩ | ⟨fb, w, rfl, rfl⟩
    · exact ⟨_, exec_dec_eq_deliver n B s, exec_deci_eq_deliver hs n B⟩
    · exact ⟨_, exec_decs_eq_deliver n fb B s, exec_decsi_eq_deliver hs n fb B⟩
    · exact ⟨_, exec_decp_eq_deliver fb w s, exec_decpi_eq_deliver hs fb w⟩
  rw [deliver_eq] at unsigned signed
  refine ⟨_, _, unsigned, signed, ?_⟩
  cases r with
  | ok d => exact ⟨rfl, rfl, rfl, fun _ => rfl, fun failed => absurd rfl failed⟩
  | error k => exact ⟨rfl, rfl, rfl, fun succeeded => absurd succeeded (errKind_code_toNat_ne_zero k), fun _ => rfl⟩

end Sys2Proof.Machine
end

section
/-! PROOFS. Errors as statuses: raising one, the codes that select nothing, and the status table (60_exceptions.md
R179 to R181). -/

namespace Sys2Proof.Machine

open Sys2Proof

/-! ### Raising an error -/

/-- Raising writes the code of the kind and zeros, whatever the registers held (60_exceptions.md R181). -/
theorem raise_shows (k : ErrKind) (s : State) : Shows (raise k s) k.code.toNat 0 0 noBytes :=
  have bytes : ∀ i < 9, (bufByte (raise k s).rbuf i).toNat = noBytes i := fun i _ => by simp [noBytes]
  ⟨rfl, rfl, rfl, bytes⟩

/-- Settles O10: `raise` is a register write of the kind's code, which is 1, 2 or 3. -/
theorem raiseWritesTheCodeAndZeros : Obligations.RaiseWritesTheCodeAndZeros := fun s =>
  ⟨⟨raise_shows .truncated s, raise_shows .redundantEncode s, raise_shows .illegalOp s⟩,
    fun k => ⟨raise_config k s, raise_pending k s⟩⟩

/-! ### Codes that select no operation -/

/-- The four reserved codes raise `IllegalOp` (30_encoding.md R74, 60_exceptions.md R180). -/
theorem exec_of_reserved {i : Instr} (h : i.notReserved = false) (s : State) :
    exec i s = .next (raise .illegalOp s) := by
  cases i with
  | reserved12 | reserved13 | reserved14 | reserved15 => rfl
  | enclen | declen | enc | dec | decs | decp | zzenc | zzdec | enci | deci | decsi | decpi
  | wireL1 | wireL2 | wireL3 | wireL4 | wireL5 | wireL6 | wireL7 | wireL8 | wireL9 => cases h

/-- An instruction whose code selects nothing in the state's build answers `IllegalOp`: the code is reserved, or the
gate of the zigzag unit is closed (60_exceptions.md R180). -/
theorem answers_illegalOp_of_not_selects {i : Instr} {s : State} (h : i.selects s.config = false) :
    Answers i s 3 0 0 noBytes := by
  cases reserved : i.notReserved with
  | false => exact answers_of_illegalOp (exec_of_reserved reserved s)
  | true =>
    obtain ⟨without, signed⟩ : s.config.hasSigned = false ∧ i.isSigned = true := by
      simpa [Instr.selects, reserved] using h
    exact withoutTheZigzagUnit.1 i s signed without

/-- `op` 12 to 15 is a reserved code (30_encoding.md R72, R74). -/
theorem decodeRequest_reserved {r : BitVec 152} (h : 12 ≤ (reqOp r).toNat) :
    (decodeRequest r).notReserved = false := by
  have fourBits : (reqOp r).toNat < 16 := (reqOp r).isLt
  rw [decodeRequest]
  interval_cases (reqOp r).toNat <;> rfl

/-- `op` 6 to 11 is an operation of the zigzag unit (30_encoding.md R72). -/
theorem decodeRequest_isSigned {r : BitVec 152} (h6 : 6 ≤ (reqOp r).toNat) (h11 : (reqOp r).toNat ≤ 11) :
    (decodeRequest r).isSigned = true := by
  rw [decodeRequest]
  interval_cases (reqOp r).toNat <;> rfl

/-- Settles O42: such a request decodes to an instruction that selects nothing in the build, whatever its operands. -/
theorem unselectedRequestAnswersIllegalOp : Obligations.UnselectedRequestAnswersIllegalOp := by
  intro r s op
  rw [← reqOp_toNat] at op
  refine ⟨decodeRequest r, rfl, answers_illegalOp_of_not_selects ?_⟩
  rcases op with h12 | ⟨h6, h11, without⟩
  · simp [Instr.selects, decodeRequest_reserved h12]
  · simp [Instr.selects, decodeRequest_isSigned h6 h11, without]

/-! ### The status an instruction ends with -/

section Ends

variable {i : Instr} {s : State}

/-- What an instruction ends with is the status of its one next state. -/
theorem endsWith_iff_of_next {t : State} {stat : Nat} (h : exec i s = .next t) :
    EndsWith i s stat ↔ t.rstat.toNat = stat := by
  simp [EndsWith, h]

theorem endsWith_of_answers {stat len val : Nat} {buf : Nat → Nat} (h : Answers i s stat len val buf) :
    EndsWith i s stat := by
  obtain ⟨t, next, status, -⟩ := h
  exact ⟨t, next, status⟩

/-- A decode that has all its bytes ends with `OK` or `RedundantEncode` (42_decode.md R132). -/
theorem exists_status_of_answersUnpacked {L v : Nat} {out : Nat → Nat} (h : AnswersUnpacked i s L v out) :
    ∃ k ∈ [0, 2], EndsWith i s k := by
  by_cases canonical : Canonical L v
  · exact ⟨0, by simp, endsWith_of_answers (h.1 canonical)⟩
  · exact ⟨2, by simp, endsWith_of_answers (h.2 canonical)⟩

/-- A decode ends with `OK`, `Truncated` or `RedundantEncode` (42_decode.md R132). -/
theorem exists_status_of_answersDecode {complete : Prop} {L v : Nat} {out : Nat → Nat}
    (h : AnswersDecode i s complete L v out) : ∃ k ∈ [0, 1, 2], EndsWith i s k := by
  by_cases full : complete
  · obtain ⟨k, hk, ends⟩ := exists_status_of_answersUnpacked (h.2 full)
    have row : [0, 2] ⊆ [0, 1, 2] := by decide
    exact ⟨k, row hk, ends⟩
  · exact ⟨1, by simp, endsWith_of_answers (h.1 full)⟩

end Ends

theorem exists_status_dec (n : BitVec 4) (B : Buf) (s : State) : ∃ k ∈ [0, 1, 2], EndsWith (.dec n B) s k :=
  exists_status_of_answersDecode (answersDecode_dec (decodedLen_announces _) n s)

theorem exists_status_decs (n : BitVec 4) (fb : Byte) (B : Buf) (s : State) :
    ∃ k ∈ [0, 1, 2], EndsWith (.decs n fb B) s k :=
  exists_status_of_answersDecode (answersDecode_decs (decodedLen_announces fb) n B s)

theorem exists_status_decp (fb : Byte) (w : Word) (s : State) : ∃ k ∈ [0, 2], EndsWith (.decp fb w) s k :=
  exists_status_of_answersUnpacked (answersUnpacked_decp (decodedLen_announces fb) w s)

/-! ### A signed decode ends as its unsigned form does -/

/-- The zigzag step rewrites a value and leaves the status alone (43_zigzag_signed.md R160). -/
theorem endsWith_signedResult_iff {i j : Instr} {s : State} {r : Except ErrKind Decoded} {k : Nat}
    (unsigned : exec i s = deliver r s) (signed : exec j s = deliver (signedResult r) s) :
    EndsWith j s k ↔ EndsWith i s k := by
  rw [deliver_eq] at unsigned signed
  rw [endsWith_iff_of_next unsigned, endsWith_iff_of_next signed]
  cases r <;> rfl

section Present

variable {s : State} (hs : s.config.hasSigned = true)
include hs

theorem endsWith_deci_iff {n : BitVec 4} {B : Buf} {k : Nat} :
    EndsWith (.deci n B) s k ↔ EndsWith (.dec n B) s k :=
  endsWith_signedResult_iff (exec_dec_eq_deliver n B s) (exec_deci_eq_deliver hs n B)

theorem endsWith_decsi_iff {n : BitVec 4} {fb : Byte} {B : Buf} {k : Nat} :
    EndsWith (.decsi n fb B) s k ↔ EndsWith (.decs n fb B) s k :=
  endsWith_signedResult_iff (exec_decs_eq_deliver n fb B s) (exec_decsi_eq_deliver hs n fb B)

theorem endsWith_decpi_iff {fb : Byte} {w : Word} {k : Nat} :
    EndsWith (.decpi fb w) s k ↔ EndsWith (.decp fb w) s k :=
  endsWith_signedResult_iff (exec_decp_eq_deliver fb w s) (exec_decpi_eq_deliver hs fb w)

/-- `ZZDEC` completes with the signed value in `RVAL` (43_zigzag_signed.md R158). -/
theorem exec_zzdec_next (a : Word) : exec (.zzdec a) s = .next (respond (okVal (zigzagDecode a)) s) :=
  withSigned_of_hasSigned hs fun t => .next (respond (okVal (zigzagDecode a)) t)

end Present

/-! ### The nevers of the status table -/

/-- The rows of the operations every build has, and of the reserved codes (60_exceptions.md R179). -/
theorem exists_status_of_not_isSigned {i : Instr} {r : BitVec 152} (request : encode i = .request r)
    (h : i.isSigned = false) (s : State) : ∃ k ∈ statusColumn s.config.hasSigned i, EndsWith i s k := by
  cases i with
  | enclen | declen | enc => exact ⟨0, List.mem_singleton_self 0, _, rfl, rfl⟩
  | dec n B => exact exists_status_dec n B s
  | decs n fb B => exact exists_status_decs n fb B s
  | decp fb w => exact exists_status_decp fb w s
  | reserved12 | reserved13 | reserved14 | reserved15 =>
    exact ⟨3, List.mem_singleton_self 3, endsWith_of_answers (answers_illegalOp_of_not_selects rfl)⟩
  | zzenc | zzdec | enci | deci | decsi | decpi => cases h
  | wireL1 | wireL2 | wireL3 | wireL4 | wireL5 | wireL6 | wireL7 | wireL8 | wireL9 => cases request

/-- The rows of the signed operations where the zigzag unit exists (60_exceptions.md R179). -/
theorem exists_status_of_isSigned {i : Instr} {s : State} (h : i.isSigned = true)
    (hs : s.config.hasSigned = true) : ∃ k ∈ statusColumn true i, EndsWith i s k := by
  cases i with
  | zzenc a => exact ⟨0, List.mem_singleton_self 0, _, exec_zzenc_next hs a, rfl⟩
  | zzdec a => exact ⟨0, List.mem_singleton_self 0, _, exec_zzdec_next hs a, rfl⟩
  | enci a => exact ⟨0, List.mem_singleton_self 0, _, exec_enci_next hs a, rfl⟩
  | deci n B =>
    obtain ⟨k, hk, ends⟩ := exists_status_dec n B s
    exact ⟨k, hk, (endsWith_deci_iff hs).mpr ends⟩
  | decsi n fb B =>
    obtain ⟨k, hk, ends⟩ := exists_status_decs n fb B s
    exact ⟨k, hk, (endsWith_decsi_iff hs).mpr ends⟩
  | decpi fb w =>
    obtain ⟨k, hk, ends⟩ := exists_status_decp fb w s
    exact ⟨k, hk, (endsWith_decpi_iff hs).mpr ends⟩
  | enclen | declen | enc | dec | decs | decp | reserved12 | reserved13 | reserved14 | reserved15
  | wireL1 | wireL2 | wireL3 | wireL4 | wireL5 | wireL6 | wireL7 | wireL8 | wireL9 => cases h

/-- Without the zigzag unit the one entry of a signed operation's row is `IllegalOp` (43_zigzag_signed.md R166). -/
theorem statusColumn_without_unit {i : Instr} (h : i.isSigned = true) : statusColumn false i = [3] := by
  cases i with
  | zzenc | zzdec | enci | deci | decsi | decpi => rfl
  | enclen | declen | enc | dec | decs | decp | reserved12 | reserved13 | reserved14 | reserved15
  | wireL1 | wireL2 | wireL3 | wireL4 | wireL5 | wireL6 | wireL7 | wireL8 | wireL9 => cases h

/-- Every instruction a request carries ends with a status of its row of the table (60_exceptions.md R179). -/
theorem exists_status_of_request {i : Instr} {r : BitVec 152} (request : encode i = .request r) (s : State) :
    ∃ k ∈ statusColumn s.config.hasSigned i, EndsWith i s k := by
  cases signed : i.isSigned with
  | false => exact exists_status_of_not_isSigned request signed s
  | true =>
    cases unit : s.config.hasSigned with
    | true => exact exists_status_of_isSigned signed unit
    | false =>
      rw [statusColumn_without_unit signed]
      exact ⟨3, List.mem_singleton_self 3, endsWith_of_answers (withoutTheZigzagUnit.1 i s signed unit)⟩

/-! ### The yeses of the status table

The encoding `[00]` is complete and canonical, `[80 00]` is complete and carries 0 in two bytes, and `[80]`
alone lacks a byte. -/

theorem dec_attains (s : State) : ∀ k ∈ [0, 1, 2], ∃ n B, EndsWith (.dec n B) s k := by
  have one : Announces (bufByte zeroBuf 0).toNat 1 := by decide
  have two : Announces (bufByte (bufOfList [0x80, 0]) 0).toNat 2 := by decide
  have ok := ((answersDecode_dec one 1 s).2 (by decide)).1 (.inl rfl)
  have truncated := (answersDecode_dec two 1 s).1 (by decide)
  have redundant := ((answersDecode_dec two 2 s).2 (by decide)).2 (by decide)
  intro k hk
  fin_cases hk
  · exact ⟨_, _, endsWith_of_answers ok⟩
  · exact ⟨_, _, endsWith_of_answers truncated⟩
  · exact ⟨_, _, endsWith_of_answers redundant⟩

theorem decs_attains (s : State) : ∀ k ∈ [0, 1, 2], ∃ n fb B, EndsWith (.decs n fb B) s k := by
  have one : Announces (0x00 : Byte).toNat 1 := by decide
  have two : Announces (0x80 : Byte).toNat 2 := by decide
  have ok := ((answersDecode_decs one 0 zeroBuf s).2 (by decide)).1 (.inl rfl)
  have truncated := (answersDecode_decs two 0 zeroBuf s).1 (by decide)
  have redundant := ((answersDecode_decs two 1 zeroBuf s).2 (by decide)).2 (by decide)
  intro k hk
  fin_cases hk
  · exact ⟨_, _, _, endsWith_of_answers ok⟩
  · exact ⟨_, _, _, endsWith_of_answers truncated⟩
  · exact ⟨_, _, _, endsWith_of_answers redundant⟩

theorem decp_attains (s : State) : ∀ k ∈ [0, 2], ∃ fb w, EndsWith (.decp fb w) s k := by
  have one : Announces (0x00 : Byte).toNat 1 := by decide
  have two : Announces (0x80 : Byte).toNat 2 := by decide
  have ok := (answersUnpacked_decp one 0 s).1 (.inl rfl)
  have redundant := (answersUnpacked_decp two 0 s).2 (by decide)
  intro k hk
  fin_cases hk
  · exact ⟨_, _, endsWith_of_answers ok⟩
  · exact ⟨_, _, endsWith_of_answers redundant⟩

/-- Settles O45: every request ends within its row, and each yes of a decode is attained; a signed decode attains it
with the operands of its unsigned form. -/
theorem statusesOfEachOperation : Obligations.StatusesOfEachOperation := by
  refine ⟨fun i r s request => exists_status_of_request request s,
    fun s => ⟨dec_attains s, decs_attains s, decp_attains s, fun hs => ⟨?_, ?_, ?_⟩⟩⟩
  · simpa only [endsWith_deci_iff hs] using dec_attains s
  · simpa only [endsWith_decsi_iff hs] using decs_attains s
  · simpa only [endsWith_decpi_iff hs] using decp_attains s

end Sys2Proof.Machine
end

section
/-! PROOFS. The codec functions undo each other: a byte sequence decodes to a value exactly if it is the value's
encoding (41_encode.md, laws of encode; 42_decode.md section 6). -/

namespace Sys2Proof.Machine

open Sys2Proof

/-! ### Byte sequences, their numbers and their slices -/

theorem bytes_ext {s t : List Byte} (len : s.length = t.length)
    (h : ∀ i < s.length, (s.getD i 0).toNat = (t.getD i 0).toNat) : s = t := by
  refine List.ext_getElem len fun i hs ht => BitVec.eq_of_toNat_eq ?_
  simpa only [List.getD_eq_getElem _ _ hs, List.getD_eq_getElem _ _ ht] using h i hs

/-- Byte `i` of `LEbytes_k(w)` by value (00_scope.md R10). -/
theorem leBytes_getD_toNat {k w i : Nat} (h : i < k) : ((leBytes k w).getD i 0).toNat = w / 2 ^ (8 * i) % 256 := by
  rw [leBytes_getD h, BitVec.toNat_ofNat]

/-- Putting bytes together and taking them apart gives the bytes back. -/
theorem leBytes_leNat (bytes : List Byte) : leBytes bytes.length (leNat bytes) = bytes := by
  refine bytes_ext (leBytes_length _ _) fun i hi => ?_
  rw [leBytes_length] at hi
  rw [leBytes_getD_toNat hi, leNat_div_mod]

/-- A word holds the number of up to eight bytes (00_scope.md R10). -/
theorem packLe_toNat {bytes : List Byte} (h : bytes.length ≤ 8) : (packLe bytes).toNat = leNat bytes := by
  have fits : 2 ^ (8 * bytes.length) ≤ 2 ^ 64 := Nat.pow_le_pow_right (by decide) (by omega)
  rw [packLe, BitVec.toNat_ofNat, Nat.mod_eq_of_lt (Nat.lt_of_lt_of_le (leNat_lt bytes) fits)]

/-- A slice is its first byte and the slice after it. -/
theorem bufSlice_succ (B : Buf) (i k : Nat) : bufSlice B i (k + 1) = bufByte B i :: bufSlice B (i + 1) k := by
  simp [bufSlice, List.range_succ_eq_map, Function.comp_def, Nat.add_assoc, Nat.add_comm 1]

theorem bufSlice_congr {B B' : Buf} {i i' k : Nat} (h : ∀ j < k, bufByte B (i + j) = bufByte B' (i' + j)) :
    bufSlice B i k = bufSlice B' i' k :=
  List.map_congr_left fun j hj => h j (List.mem_range.mp hj)

theorem bufSlice_getD (B : Buf) {i j k : Nat} (h : j < k) : (bufSlice B i k).getD j 0 = bufByte B (i + j) := by
  simp [bufSlice, h]

/-- What a buffer was filled with reads back from it. -/
theorem bufSlice_bufOfList {bytes : List Byte} {k : Nat} (hk : k ≤ bytes.length) (h9 : k ≤ 9) :
    bufSlice (bufOfList bytes) 0 k = bytes.take k := by
  have len : (bufSlice (bufOfList bytes) 0 k).length = (bytes.take k).length := by simp [hk]
  refine bytes_ext len fun i hi => ?_
  rw [bufSlice_length] at hi
  rw [bufSlice_getD _ hi, Nat.zero_add, bufByte_bufOfList _ (by omega)]
  simp [List.getD_eq_getElem?_getD, hi]

/-! ### The two parts of an encoding, by value

The first byte holds the length pattern above the low value bits; the follow bytes are the rest of the value,
or all of it in classes 8 and 9 (30_encoding.md R61 to R63). -/

/-- The number that the follow bytes of `v`'s encoding in length class `L` form. -/
def followPart (L v : Nat) : Nat := if L ≤ 7 then v / 2 ^ (8 - L) else v

/-- The follow bytes of the layout are the bytes of `followPart`. -/
theorem layoutByte_succ {L j : Nat} (v : Nat) (h9 : L ≤ 9) (hj : j + 1 < L) :
    layoutByte L v (j + 1) = followPart L v / 2 ^ (8 * j) % 256 := by
  have inside : ¬ L ≤ j + 1 := by omega
  have long : L ≠ 1 := by omega
  rw [layoutByte, if_neg inside, if_neg long, followPart]
  by_cases h7 : L ≤ 7
  · have places : 8 * (j + 1) - L = (8 - L) + 8 * j := by omega
    rw [if_pos h7, if_pos h7, if_neg (Nat.succ_ne_zero j), places, Nat.pow_add, Nat.div_div_eq_div_mul]
  · have place : 8 * (j + 1) - 8 = 8 * j := by omega
    simp [h7, place]

/-- The follow bytes have room for their part of the value. -/
theorem followPart_lt {v L : Nat} (least : LeastLen v L) (h64 : v < 2 ^ 64) : followPart L v < 2 ^ (8 * (L - 1)) := by
  obtain ⟨h1, h9, upper, -⟩ := least
  rcases Nat.lt_or_ge L 9 with h8 | h9'
  · have holds : v < 2 ^ (7 * L) := upper (by omega)
    interval_cases L <;> simp [followPart] at holds ⊢ <;> omega
  · obtain rfl : L = 9 := by omega
    simpa [followPart] using h64

/-- Unpacking the two parts of an encoding gives the value back. -/
theorem payload_of_parts {v L : Nat} (least : LeastLen v L) :
    payload L (layoutByte L v 0) (followPart L v) = v := by
  obtain ⟨h1, h9, upper, -⟩ := least
  rcases Nat.lt_or_ge L 8 with h7 | h8
  · have holds : v < 2 ^ (7 * L) := upper (by omega)
    interval_cases L <;> simp [payload, layoutByte, followPart] at holds ⊢ <;> omega
  · have long : ¬ L ≤ 7 := by omega
    simp [payload, followPart, long]

section Parts

variable {L F : Nat} {b : Byte} (announces : Announces b.toNat L) (hF : F < 2 ^ (8 * (L - 1)))
include announces hF

/-- The first byte of the layout of an unpacked value is the byte it was unpacked from. -/
theorem layoutByte_zero_payload : layoutByte L (payload L b.toNat F) 0 = b.toNat := by
  obtain ⟨h1, h9, low, high⟩ := announces
  have byte := b.isLt
  interval_cases L <;> simp [payload, layoutByte] at hF low high ⊢ <;> omega

/-- The follow part of an unpacked value is the number it was unpacked from. -/
theorem followPart_payload : followPart L (payload L b.toNat F) = F := by
  obtain ⟨h1, h9, -, -⟩ := announces
  rcases Nat.lt_or_ge L 8 with h7 | h8
  · interval_cases L <;> simp [payload, followPart] at hF ⊢ <;> omega
  · have long : ¬ L ≤ 7 := by omega
    simp [payload, followPart, long]

/-- Canonicity is minimality of the length: an unpacked value never exceeds its class (42_decode.md section 3). -/
theorem leastLen_payload_iff : LeastLen (payload L b.toNat F) L ↔ Canonical L (payload L b.toNat F) := by
  obtain ⟨h1, h9, -, high⟩ := announces
  have upper : L ≤ 8 → payload L b.toNat F < 2 ^ (7 * L) := by
    intro h8
    interval_cases L <;> simp [payload] at hF high ⊢ <;> omega
  exact ⟨fun least => (Nat.eq_or_lt_of_le h1).imp Eq.symm fun h2 => least.2.2.2 h2,
    fun canonical => ⟨h1, h9, upper, fun h2 => canonical.resolve_left (by omega)⟩⟩

end Parts

/-! ### The bijection -/

/-- An encoding is its first byte and the bytes of its follow part. -/
theorem encodeValue_eq_cons (a : Word) :
    encodeValue a = BitVec.ofNat 8 (layoutByte (encodedLen a) a.toNat 0) ::
      leBytes (encodedLen a - 1) (followPart (encodedLen a) a.toNat) := by
  obtain ⟨h1, h9, -, -⟩ := encodedLen_least a
  have length : (encodeValue a).length = (encodedLen a - 1) + 1 := by rw [encodeValue_length]; omega
  refine bytes_ext (by simp [length]) fun i hi => ?_
  rw [encodeValue_getD]
  cases i with
  | zero =>
    have byte : layoutByte (encodedLen a) a.toNat 0 < 2 ^ 8 := by
      rw [← encodeValue_getD]
      exact BitVec.isLt _
    rw [List.getD_cons_zero, BitVec.toNat_ofNat, Nat.mod_eq_of_lt byte]
  | succ j => rw [List.getD_cons_succ, leBytes_getD_toNat (by omega), layoutByte_succ _ h9 (by omega)]

section Bijection

variable {L : Nat} {b : Byte} {follow : List Byte}

/-- The shared end of the decoder on `L - 1` follow bytes, by value (42_decode.md R132). -/
theorem finishDecode_packLe (announces : Announces b.toNat L) (len : follow.length = L - 1) :
    finishDecode L b (packLe follow) =
      if Canonical L (payload L b.toNat (leNat follow)) then .ok { len := L, val := unpack L b (packLe follow) }
      else .error .redundantEncode := by
  have number : (packLe follow).toNat = leNat follow := packLe_toNat (by have := announces.2.1; omega)
  have bound := leNat_lt follow
  rw [len] at bound
  rw [finishDecode_eq announces.1 b _ fun _ => number ▸ bound, number]

/-- The value that a first byte and `L - 1` follow bytes unpack to. -/
theorem unpack_packLe_toNat (announces : Announces b.toNat L) (len : follow.length = L - 1) :
    (unpack L b (packLe follow)).toNat = payload L b.toNat (leNat follow) := by
  have number : (packLe follow).toNat = leNat follow := packLe_toNat (by have := announces.2.1; omega)
  have bound := leNat_lt follow
  rw [len] at bound
  rw [unpack_toNat announces.1 b _ fun _ => number ▸ bound, number]

/-- An encoding announces its own length, has the follow bytes it announces, and unpacks to its value. -/
theorem unpack_of_encodeValue {v : Word} (h : encodeValue v = b :: follow) :
    Announces b.toNat (encodedLen v) ∧ follow.length = encodedLen v - 1 ∧
      unpack (encodedLen v) b (packLe follow) = v := by
  have least := encodedLen_least v
  have first : b.toNat = layoutByte (encodedLen v) v.toNat 0 := by rw [← encodeValue_getD, h, List.getD_cons_zero]
  have announces : Announces b.toNat (encodedLen v) := first ▸ layoutByte_zero_announces least
  obtain ⟨-, tail⟩ := List.cons.inj (h.symm.trans (encodeValue_eq_cons v))
  have len : follow.length = encodedLen v - 1 := by rw [tail, leBytes_length]
  refine ⟨announces, len, BitVec.eq_of_toNat_eq ?_⟩
  rw [unpack_packLe_toNat announces len, tail, leNat_leBytes _ _ (followPart_lt least v.isLt), first,
    payload_of_parts least]

/-- The encoding of a canonical unpacked value is the bytes it was unpacked from. -/
theorem encodeValue_unpack (announces : Announces b.toNat L) (len : follow.length = L - 1)
    (canonical : Canonical L (payload L b.toNat (leNat follow))) :
    encodeValue (unpack L b (packLe follow)) = b :: follow := by
  have value := unpack_packLe_toNat announces len
  have bound : leNat follow < 2 ^ (8 * (L - 1)) := len ▸ leNat_lt follow
  have least : LeastLen (unpack L b (packLe follow)).toNat L :=
    value ▸ (leastLen_payload_iff announces bound).mpr canonical
  rw [encodeValue_eq_cons, leastLen_unique (encodedLen_least _) least, value, layoutByte_zero_payload announces bound,
    followPart_payload announces bound, ← len, leBytes_leNat, BitVec.ofNat_toNat, BitVec.setWidth_eq]

/-- The bijection of the codec: a first byte with the follow bytes it announces decodes to a value exactly if the two
are the value's encoding (42_decode.md section 6, R140). -/
theorem finishDecode_eq_ok_iff {d : Decoded} (announces : Announces b.toNat L) (len : follow.length = L - 1) :
    finishDecode L b (packLe follow) = .ok d ↔ d.len = L ∧ encodeValue d.val = b :: follow := by
  have bound : leNat follow < 2 ^ (8 * (L - 1)) := len ▸ leNat_lt follow
  have payload_eq := unpack_packLe_toNat announces len
  rw [finishDecode_packLe announces len]
  constructor
  · intro ok
    by_cases canonical : Canonical L (payload L b.toNat (leNat follow))
    · rw [if_pos canonical] at ok
      obtain rfl : _ = d := Except.ok.inj ok
      exact ⟨rfl, encodeValue_unpack announces len canonical⟩
    · rw [if_neg canonical] at ok
      cases ok
  · rintro ⟨rfl, encoding⟩
    obtain ⟨announces', -, value⟩ := unpack_of_encodeValue encoding
    have same := announces_unique announces' announces
    rw [same] at value
    rw [value] at payload_eq
    have least : LeastLen d.val.toNat d.len := same ▸ encodedLen_least d.val
    have canonical := (leastLen_payload_iff announces bound).mp (payload_eq ▸ least)
    rw [if_pos canonical, value]

end Bijection

end Sys2Proof.Machine
end

section
/-! PROOFS. The laws that tie the encode and decode operations together: the round trips, the truncated and the
surplus bytes, and the agreement of the three entry points (41_encode.md, 42_decode.md sections 3 to 6). -/

namespace Sys2Proof.Machine

open Sys2Proof

/-! ### What each entry point hands to the shared end of the decoder -/

section EntryPoints

variable {n L : Nat} {B : Buf} {b : Byte}

theorem decodeSlice_of_short (announces : Announces (bufByte B 0).toNat L) (short : n < L) :
    decodeSlice n B = .error .truncated := by
  rw [decodeSlice_eq announces, if_pos short]

/-- A slice that reaches the announced length is unpacked from `IBUF[0]` and the bytes after it (42_decode.md R135). -/
theorem decodeSlice_of_complete (announces : Announces (bufByte B 0).toNat L) (complete : L ≤ n) :
    decodeSlice n B = finishDecode L (bufByte B 0) (packLe (bufSlice B 1 (L - 1))) := by
  have tooShort : sliceTooShort n L = false := by
    have := announces.1
    simp [sliceTooShort]
    omega
  simp [decodeSlice, sliceFirst, decodedLen_eq announces, tooShort, sliceFollow, memRead]

theorem decodeSplit_of_short (announces : Announces b.toNat L) (short : n < L - 1) :
    decodeSplit n b B = .error .truncated := by
  rw [decodeSplit_eq announces, if_pos short]

/-- A split input that reaches the announced length is unpacked from the first byte and the first bytes of the buffer
(42_decode.md R136). -/
theorem decodeSplit_of_complete (announces : Announces b.toNat L) (complete : L - 1 ≤ n) :
    decodeSplit n b B = finishDecode L b (packLe (bufSlice B 0 (L - 1))) := by
  have tooShort : followTooShort n L = false := by simpa [followTooShort] using complete
  simp [decodeSplit, decodedLen_eq announces, tooShort, splitFollow, memRead]

/-- The packed form has no bytes to miss (42_decode.md R137). -/
theorem decodePacked_of_announces (announces : Announces b.toNat L) (w : Word) :
    decodePacked b w = finishDecode L b (packedFollow w L) := by
  simp [decodePacked, decodedLen_eq announces]

/-- A slice decodes to a value exactly if it has all bytes of the value's encoding, and begins with them
(42_decode.md R140). -/
theorem decodeSlice_eq_ok_iff {d : Decoded} :
    decodeSlice n B = .ok d ↔ d.len ≤ n ∧ encodeValue d.val = bufSlice B 0 d.len := by
  have announces := decodedLen_announces (bufByte B 0)
  constructor
  · intro ok
    have complete : decodedLen (bufByte B 0) ≤ n := by
      refine Nat.le_of_not_lt fun short => ?_
      rw [decodeSlice_of_short announces short] at ok
      cases ok
    rw [decodeSlice_of_complete announces complete, finishDecode_eq_ok_iff announces (bufSlice_length B 1 _)] at ok
    obtain ⟨len, encoding⟩ := ok
    have whole : d.len = (d.len - 1) + 1 := by have := announces.1; omega
    rw [← len] at complete encoding
    exact ⟨complete, by rw [encoding, whole, bufSlice_succ, Nat.add_sub_cancel]⟩
  · rintro ⟨complete, encoding⟩
    have length : d.len = encodedLen d.val := by rw [← encodeValue_length, encoding, bufSlice_length]
    have whole : d.len = (d.len - 1) + 1 := by have := (encodedLen_least d.val).1; omega
    rw [whole, bufSlice_succ] at encoding
    obtain ⟨announces', len, -⟩ := unpack_of_encodeValue encoding
    rw [← length] at announces' len
    rw [decodeSlice_of_complete announces' complete, finishDecode_eq_ok_iff announces' (bufSlice_length B 1 _)]
    exact ⟨rfl, encoding⟩

end EntryPoints

/-- A decode that ends with `OK` has delivered a value (60_exceptions.md R181). -/
theorem eq_ok_of_deliver {r : Except ErrKind Decoded} {s t : State} (h : deliver r s = .next t) (ok : t.rstat = 0) :
    ∃ d, r = .ok d ∧ t = respond (okDecoded d.len d.val) s := by
  rw [deliver_eq] at h
  obtain rfl : respond (resultResponse r) s = t := by simpa using h
  cases r with
  | ok d => exact ⟨d, rfl, rfl⟩
  | error k => exact absurd (congrArg BitVec.toNat ok) (errKind_code_toNat_ne_zero k)

/-- What a successful `DEC` has done: the slice begins with the encoding of the value it answers. -/
theorem exec_dec_ok {n : BitVec 4} {B : Buf} {s t : State} (h : exec (.dec n B) s = .next t) (ok : t.rstat = 0) :
    encodedLen t.rval = t.rlen.toNat ∧ t.rlen.toNat ≤ n.toNat ∧ encodeValue t.rval = bufSlice B 0 t.rlen.toNat := by
  obtain ⟨d, decoded, rfl⟩ := eq_ok_of_deliver ((exec_dec_eq_deliver n B s).symm.trans h) ok
  obtain ⟨complete, encoding⟩ := decodeSlice_eq_ok_iff.mp decoded
  have fits : (respond (okDecoded d.len d.val) s).rlen.toNat = d.len := by
    have := n.isLt
    simp only [respond_rlen, okDecoded, BitVec.toNat_ofNat]
    omega
  rw [fits]
  exact ⟨by rw [← encodeValue_length]; exact (congrArg List.length encoding).trans (bufSlice_length B 0 _),
    complete, encoding⟩

/-! ### Encoding, then decoding -/

/-- The result registers hold the whole encoding (41_encode.md R110). -/
theorem bufSlice_encodeValue (a : Word) : bufSlice (bufOfList (encodeValue a)) 0 (encodedLen a) = encodeValue a := by
  have length := encodeValue_length a
  rw [bufSlice_bufOfList (le_of_eq length.symm) (encodedLen_least a).2.1, ← length, List.take_length]

/-- `decode` of an encoding, with any count that reaches its end, is the value (42_decode.md R140). -/
theorem decodeSlice_encodeValue {a : Word} {n : Nat} (complete : encodedLen a ≤ n) :
    decodeSlice n (bufOfList (encodeValue a)) = .ok { len := encodedLen a, val := a } :=
  decodeSlice_eq_ok_iff.mpr ⟨complete, (bufSlice_encodeValue a).symm⟩

/-- Settles O27: `decode` inverts `encode`, and `DEC` delivers its result. -/
theorem decodingAnEncodingGivesTheValueBack : Obligations.DecodingAnEncodingGivesTheValueBack := by
  refine fun a s => ⟨_, exec_enc_next a s, fun n complete => ?_⟩
  rw [respond_encodeValue_rlen] at complete ⊢
  refine answers_of_deliver_ok (encodedLen_least a).2.1 ?_
  rw [exec_dec_eq_deliver]
  exact congrArg (deliver · _) (decodeSlice_encodeValue complete)

/-- Settles O29: an encoding announces its own length, so a smaller count is truncated. -/
theorem everyStrictPrefixIsTruncated : Obligations.EveryStrictPrefixIsTruncated := by
  intro a s t k next short
  obtain rfl : respond (okBytes (encodeValue a)) s = t := by simpa [exec_enc_next] using next
  rw [respond_encodeValue_rlen] at short
  have announces := encodeValue_head_announces (encodedLen_least a)
  exact (answersDecode_dec announces k _).1 (Nat.not_le.mpr short)

/-- Settles O20: a buffer that begins with the encodings of both values decodes to each of them. -/
theorem noEncodingBeginsAnother : Obligations.NoEncodingBeginsAnother := by
  intro a b s t u nextA nextB agree
  obtain rfl : respond (okBytes (encodeValue a)) s = t := by simpa [exec_enc_next] using nextA
  obtain rfl : respond (okBytes (encodeValue b)) s = u := by simpa [exec_enc_next] using nextB
  rw [respond_encodeValue_rlen] at agree
  have front : bufSlice (bufOfList (encodeValue b)) 0 (encodedLen a) = encodeValue a :=
    (bufSlice_congr fun i hi => by rw [Nat.zero_add]; exact (agree i hi).symm).trans (bufSlice_encodeValue a)
  have toA : decodeSlice 9 (bufOfList (encodeValue b)) = .ok { len := encodedLen a, val := a } :=
    decodeSlice_eq_ok_iff.mpr ⟨(encodedLen_least a).2.1, front.symm⟩
  have toB := decodeSlice_encodeValue (encodedLen_least b).2.1
  exact congrArg Decoded.val (Except.ok.inj (toA.symm.trans toB))

/-! ### Decoding, then encoding -/

/-- Settles O28: a slice that decodes begins with the encoding of its value, which `ENC` writes. -/
theorem encodingADecodedSliceGivesItsBytesBack : Obligations.EncodingADecodedSliceGivesItsBytesBack := by
  intro n B s t next ok
  obtain ⟨length, -, encoding⟩ := exec_dec_ok next ok
  have sameLength := (respond_encodeValue_rlen t.rval t).trans length
  refine ⟨_, exec_enc_next t.rval t, BitVec.eq_of_toNat_eq sameLength, fun i hi => ?_⟩
  have h9 := (encodedLen_least t.rval).2.1
  rw [sameLength] at hi
  rw [respond_rbuf, okBytes, bufByte_bufOfList _ (by omega), encoding, bufSlice_getD B hi, Nat.zero_add]

/-- Settles O31: the length of a decoded slice is the encoded length of its value, which is the least one. -/
theorem decodedValueFitsItsLength : Obligations.DecodedValueFitsItsLength := by
  intro n B s t next ok
  obtain ⟨length, -⟩ := exec_dec_ok next ok
  exact length ▸ encodedLen_least t.rval

/-- The bytes a slice carries for length `L` have a value of at most that length class (42_decode.md section 3). -/
theorem leastLen_slicePayload_iff {B : Buf} {L : Nat} (announces : Announces (bufByte B 0).toNat L) :
    LeastLen (slicePayload L B) L ↔ Canonical L (slicePayload L B) := by
  obtain ⟨-, h9, -⟩ := id announces
  have bound := memRead_lt B 1 (L - 1)
  rw [memRead_toNat B 1 (by omega)] at bound
  simp only [Nat.add_comm 1] at bound
  exact leastLen_payload_iff announces bound

/-- Settles O30: of a complete slice `DEC` checks canonicity alone, and that is minimality of the length. -/
theorem decSucceedsExactlyAtTheEncodedLength : Obligations.DecSucceedsExactlyAtTheEncodedLength := by
  intro n B s L announces complete
  have value : (BitVec.ofNat 64 (slicePayload L B)).toNat = slicePayload L B := by
    rw [← unpack_sliceFollow_toNat announces.1 announces.2.1 B]
    simp
  rw [answers_enclen_iff, value, leastLen_slicePayload_iff announces]
  obtain ⟨accepted, rejected⟩ := (answersDecode_dec announces n s).2 complete
  refine ⟨fun ⟨t, next, status, _⟩ => ?_, accepted⟩
  by_contra redundant
  obtain ⟨status', -⟩ := (answers_iff_of_next next).mp (rejected redundant)
  omega

/-! ### Surplus bytes, and the three entry points -/

theorem exec_deci_eq_withSigned (n : BitVec 4) (B : Buf) (s : State) :
    exec (.deci n B) s = withSigned (deliver (signedResult (decodeSlice n.toNat B))) s := rfl

theorem exec_decsi_eq_withSigned (n : BitVec 4) (fb : Byte) (B : Buf) (s : State) :
    exec (.decsi n fb B) s = withSigned (deliver (signedResult (decodeSplit n.toNat fb B))) s := rfl

/-- Settles O25: `decode` and `decode_split` of a complete input read the announced bytes only. -/
theorem surplusBytesAreIgnored : Obligations.SurplusBytesAreIgnored := by
  refine fun n n' B B' s L => ⟨fun announces agree hn hn' => ?_, fun fb announces agree hn hn' => ?_⟩
  · obtain ⟨h1, -⟩ := id announces
    have first := agree 0 h1
    have follow : bufSlice B 1 (L - 1) = bufSlice B' 1 (L - 1) := bufSlice_congr fun j hj => agree (1 + j) (by omega)
    have same : decodeSlice n.toNat B = decodeSlice n'.toNat B' := by
      rw [decodeSlice_of_complete announces hn, decodeSlice_of_complete (first ▸ announces) hn', first, follow]
    simp only [exec_dec_eq_deliver, exec_deci_eq_withSigned, same, and_self]
  · have follow : bufSlice B 0 (L - 1) = bufSlice B' 0 (L - 1) :=
      bufSlice_congr fun j hj => by simpa using agree j hj
    have same : decodeSplit n.toNat fb B = decodeSplit n'.toNat fb B' := by
      rw [decodeSplit_of_complete announces hn, decodeSplit_of_complete announces hn', follow]
    simp only [exec_decs_eq_deliver, exec_decsi_eq_withSigned, same, and_self]

/-- Settles O26: the three entry points hand the same follow number to the same end. -/
theorem entryPointsAgreeOnCompleteInputs : Obligations.EntryPointsAgreeOnCompleteInputs := by
  intro n n' B B' w s L announces hn hn' follow packed
  obtain ⟨-, h9, -⟩ := id announces
  have bytes : bufSlice B' 0 (L - 1) = bufSlice B 1 (L - 1) :=
    bufSlice_congr fun j hj => by rw [Nat.zero_add, Nat.add_comm 1, follow j hj]
  have word : packedFollow w L = packLe (bufSlice B 1 (L - 1)) := by
    refine BitVec.eq_of_toNat_eq ?_
    rw [packedFollow_toNat, packed, ← memRead, memRead_toNat B 1 (by omega)]
    simp only [Nat.add_comm 1]
  have slice := decodeSlice_of_complete announces hn
  have split : decodeSplit n'.toNat (bufByte B 0) B' = decodeSlice n.toNat B := by
    rw [slice, decodeSplit_of_complete announces hn', bytes]
  have packed : decodePacked (bufByte B 0) w = decodeSlice n.toNat B := by
    rw [slice, decodePacked_of_announces announces, word]
  simp only [exec_dec_eq_deliver, exec_decs_eq_deliver, exec_decp_eq_deliver, exec_deci_eq_withSigned,
    exec_decsi_eq_withSigned, exec_decpi_eq_withSigned, split, packed, and_self]

end Sys2Proof.Machine
end

section
/-! PROOFS. The zigzag transform by value, and the signed operations built on it (43_zigzag_signed.md sections 1
to 3). -/

namespace Sys2Proof.Machine

open Sys2Proof

/-! ### The transform on numbers -/

/-- A word is the pattern of its signed reading (00_scope.md R9). -/
theorem pattern_toInt (a : Word) : pattern a.toInt = a.toNat := by
  have bound := a.isLt
  rw [pattern, BitVec.toInt_eq_toNat_cond]
  split <;> omega

/-- A signed number of 64 bits is the signed reading of its pattern (00_scope.md R9). -/
theorem toInt_of_toNat_eq_pattern {a : Word} {z : Int} (h : a.toNat = pattern z) (low : -2 ^ 63 ≤ z)
    (high : z < 2 ^ 63) : a.toInt = z := by
  rw [pattern] at h
  rw [BitVec.toInt_eq_toNat_cond]
  split <;> omega

theorem zigzagOut_zigzagIn (z : Int) : zigzagOut (zigzagIn z) = z := by
  unfold zigzagOut zigzagIn
  split <;> split <;> omega

theorem zigzagIn_zigzagOut (u : Nat) : zigzagIn (zigzagOut u) = u := by
  unfold zigzagOut zigzagIn
  split <;> split <;> omega

/-- The image of a word is a signed number of 64 bits (43_zigzag_signed.md R156). -/
theorem zigzagOut_range {u : Nat} (h : u < 2 ^ 64) : -2 ^ 63 ≤ zigzagOut u ∧ zigzagOut u < 2 ^ 63 := by
  unfold zigzagOut
  split <;> omega

/-- The images below a power of two are those of the signed numbers of half that range (43_zigzag_signed.md R164). -/
theorem zigzagIn_lt_two_pow_iff (z : Int) (m : Nat) :
    zigzagIn z < 2 ^ (m + 1) ↔ -(2 ^ m : Int) ≤ z ∧ z < 2 ^ m := by
  have cast : ((2 ^ m : Nat) : Int) = 2 ^ m := by push_cast; rfl
  rw [← cast, Nat.pow_succ]
  unfold zigzagIn
  split <;> omega

/-! ### The transform on words -/

/-- `zigzag_encode`, by value: the sign, spread over the word, complements the doubled operand
(43_zigzag_signed.md R155). -/
theorem zigzagEncode_toNat (a : Word) : (zigzagEncode a).toNat = zigzagIn a.toInt := by
  have bound := a.isLt
  have toInt := BitVec.toInt_eq_toNat_cond a
  have double : (a <<< 1).toNat = 2 * a.toNat % 2 ^ 64 := by
    rw [BitVec.toNat_shiftLeft, Nat.shiftLeft_eq, Nat.mul_comm]
  cases sign : a.msb with
  | false =>
    have small : 2 * a.toNat < 2 ^ 64 := BitVec.msb_eq_false_iff_two_mul_lt.mp sign
    have spread : a.sshiftRight 63 = 0#64 := by
      rw [BitVec.sshiftRight_eq_of_msb_false sign]
      refine BitVec.eq_of_toNat_eq ?_
      simp [Nat.shiftRight_eq_div_pow]
      omega
    rw [zigzagEncode, spread, BitVec.xor_zero, double, toInt, if_pos small, zigzagIn]
    split <;> omega
  | true =>
    have large : 2 ^ 64 ≤ 2 * a.toNat := BitVec.msb_eq_true_iff_two_mul_ge.mp sign
    have spread : a.sshiftRight 63 = BitVec.allOnes 64 := by
      rw [BitVec.sshiftRight_eq_of_msb_true sign]
      refine BitVec.eq_of_toNat_eq ?_
      simp [Nat.shiftRight_eq_div_pow]
      omega
    rw [zigzagEncode, spread, BitVec.xor_allOnes, BitVec.toNat_not, double, toInt, if_neg (by omega), zigzagIn]
    split <;> omega

/-- `zigzag_decode`, by value: the lowest bit, spread over the word, complements the halved operand
(43_zigzag_signed.md R156). -/
theorem zigzagDecode_toNat (u : Word) : (zigzagDecode u).toNat = pattern (zigzagOut u.toNat) := by
  have bound := u.isLt
  have lowest : (u &&& 1).toNat = u.toNat % 2 := by simp [Nat.and_one_is_mod]
  have half : (u >>> 1).toNat = u.toNat / 2 := by simp [Nat.shiftRight_eq_div_pow]
  rcases Nat.mod_two_eq_zero_or_one u.toNat with even | odd
  · have bit : u &&& 1 = 0#64 := BitVec.eq_of_toNat_eq (lowest.trans even)
    rw [zigzagDecode, bit, BitVec.neg_zero, BitVec.xor_zero, half, zigzagOut, if_pos even, pattern]
    omega
  · have bit : u &&& 1 = 1 := BitVec.eq_of_toNat_eq (lowest.trans odd)
    have spread : -(1 : Word) = BitVec.allOnes 64 := by decide
    rw [zigzagDecode, bit, spread, BitVec.xor_allOnes, BitVec.toNat_not, half, zigzagOut, if_neg (by omega), pattern]
    omega

/-- `zigzag_decode` undoes `zigzag_encode` (43_zigzag_signed.md R164). -/
theorem zigzagDecode_zigzagEncode (a : Word) : zigzagDecode (zigzagEncode a) = a := by
  refine BitVec.eq_of_toNat_eq ?_
  rw [zigzagDecode_toNat, zigzagEncode_toNat, zigzagOut_zigzagIn, pattern_toInt]

/-- `zigzag_encode` undoes `zigzag_decode` (43_zigzag_signed.md R164). -/
theorem zigzagEncode_zigzagDecode (u : Word) : zigzagEncode (zigzagDecode u) = u := by
  obtain ⟨low, high⟩ := zigzagOut_range u.isLt
  have signed := toInt_of_toNat_eq_pattern (zigzagDecode_toNat u) low high
  refine BitVec.eq_of_toNat_eq ?_
  rw [zigzagEncode_toNat, signed, zigzagIn_zigzagOut]

/-! ### `ZZENC` and `ZZDEC` -/

/-- `op` 6 is `ZZENC` of the field `a` (30_encoding.md R72, R73). -/
theorem selectedBy_zzenc : SelectedBy 6 (fun r => .zzenc (r.extractLsb' 16 64)) :=
  selectedBy_of_decodeRequest fun r hop => by rw [decodeRequest, hop]; rfl

/-- `op` 7 is `ZZDEC` of the field `a` (30_encoding.md R72, R73). -/
theorem selectedBy_zzdec : SelectedBy 7 (fun r => .zzdec (r.extractLsb' 16 64)) :=
  selectedBy_of_decodeRequest fun r hop => by rw [decodeRequest, hop]; rfl

/-- A success that carries a value only shows the value, and zeros elsewhere. -/
theorem answers_of_okVal {i : Instr} {s : State} {val : Word} (h : exec i s = .next (respond (okVal val) s)) :
    Answers i s 0 0 val.toNat noBytes := by
  rw [answers_iff_of_next h]
  simp [Shows, okVal, statusOk, noBytes]

section Present

variable {s : State} (hs : s.config.hasSigned = true)
include hs

theorem answers_zzenc (a : Word) : Answers (.zzenc a) s 0 0 (zigzagEncode a).toNat noBytes :=
  answers_of_okVal (exec_zzenc_next hs a)

theorem answers_zzdec (a : Word) : Answers (.zzdec a) s 0 0 (zigzagDecode a).toNat noBytes :=
  answers_of_okVal (exec_zzdec_next hs a)

end Present

/-- Settles O32: `op` 6 selects `ZZENC`, which answers the transform's value. -/
theorem zzencAnswersTheZigzagImage : Obligations.ZzencAnswersTheZigzagImage :=
  ⟨selectedBy_zzenc, fun a _ hs => zigzagEncode_toNat a ▸ answers_zzenc hs a⟩

/-- Settles O33: `op` 7 selects `ZZDEC`, which answers the inverse transform's value. -/
theorem zzdecAnswersTheSignedValue : Obligations.ZzdecAnswersTheSignedValue :=
  ⟨selectedBy_zzdec, fun a _ hs => zigzagDecode_toNat a ▸ answers_zzdec hs a⟩

/-- Settles O34: the two transforms are inverse to each other, and neither operation changes the build. -/
theorem zigzagIsABijection : Obligations.ZigzagIsABijection := by
  refine fun a s hs => ⟨⟨_, exec_zzenc_next hs a, ?_⟩, _, exec_zzdec_next hs a, ?_⟩
  · have back := answers_zzdec (s := respond (okVal (zigzagEncode a)) s) hs (zigzagEncode a)
    rwa [zigzagDecode_zigzagEncode] at back
  · have back := answers_zzenc (s := respond (okVal (zigzagDecode a)) s) hs (zigzagDecode a)
    rwa [zigzagEncode_zigzagDecode] at back

/-! ### `ENCI` -/

/-- The least length is at most `L` exactly for the values below `2^(7L)` (40_length.md R92). -/
theorem leastLen_le_iff {v k L : Nat} (least : LeastLen v k) (h1 : 1 ≤ L) (h8 : L ≤ 8) : k ≤ L ↔ v < 2 ^ (7 * L) := by
  obtain ⟨-, -, upper, lower⟩ := least
  constructor
  · intro le
    exact Nat.lt_of_lt_of_le (upper (by omega)) (Nat.pow_le_pow_right (by decide) (by omega))
  · intro fits
    by_contra longer
    have : 2 ^ (7 * L) ≤ 2 ^ (7 * (k - 1)) := Nat.pow_le_pow_right (by decide) (by omega)
    have := lower (by omega)
    omega

/-- `ENCI` answers with the canonical layout of the zigzag image (43_zigzag_signed.md R159). -/
theorem answers_enci {s : State} (hs : s.config.hasSigned = true) (a : Word) :
    Answers (.enci a) s 0 (encodedLen (zigzagEncode a)) 0
      (layoutByte (encodedLen (zigzagEncode a)) (zigzagEncode a).toNat) :=
  ⟨_, exec_enci_next hs a, shows_encodeValue (zigzagEncode a) s⟩

/-- Settles O36: `ENCI` encodes the zigzag image, and the image is below `2^(7L)` exactly on the signed range. -/
theorem signedLengthClasses : Obligations.SignedLengthClasses := by
  intro a s hs
  have least := encodedLen_least (zigzagEncode a)
  have answers := answers_enci hs a
  rw [zigzagEncode_toNat] at least answers
  refine ⟨_, least, answers, fun L h1 h8 => ?_⟩
  have bits : 7 * L = (7 * L - 1) + 1 := by omega
  rw [leastLen_le_iff least h1 h8, ← zigzagIn_lt_two_pow_iff, ← bits]

/-! ### The signed decodes -/

section SignedDecodes

variable {s : State} (hs : s.config.hasSigned = true)
include hs

/-- `DECI`'s answer: the checks of `DEC`, and the signed value of what `DEC` unpacks (43_zigzag_signed.md R160). -/
theorem answersDecode_deci {B : Buf} {L : Nat} (announces : Announces (bufByte B 0).toNat L) (n : BitVec 4) :
    AnswersDecode (.deci n B) s (L ≤ n.toNat) L (slicePayload L B) (fun u => pattern (zigzagOut u)) := by
  have value := zigzagDecode_toNat (unpack L (bufByte B 0) (sliceFollow B L))
  rw [unpack_sliceFollow_toNat announces.1 announces.2.1] at value
  refine answersDecode_of_deliver announces.2.1 value ?_
  rw [exec_deci_eq_deliver hs, decodeSlice_eq announces, apply_ite signedResult, apply_ite signedResult]
  rfl

/-- `DECSI`'s answer (43_zigzag_signed.md R161). -/
theorem answersDecode_decsi {fb : Byte} {L : Nat} (announces : Announces fb.toNat L) (n : BitVec 4) (B : Buf) :
    AnswersDecode (.decsi n fb B) s (L - 1 ≤ n.toNat) L
      (payload L fb.toNat (followNumber (fun j => (bufByte B j).toNat) (L - 1))) (fun u => pattern (zigzagOut u)) := by
  have value := zigzagDecode_toNat (unpack L fb (splitFollow B L))
  rw [unpack_splitFollow_toNat announces.1 announces.2.1] at value
  refine answersDecode_of_deliver announces.2.1 value ?_
  rw [exec_decsi_eq_deliver hs, decodeSplit_eq announces, apply_ite signedResult, apply_ite signedResult]
  rfl

/-- `DECPI`'s answer (43_zigzag_signed.md R162). -/
theorem answersUnpacked_decpi {fb : Byte} {L : Nat} (announces : Announces fb.toNat L) (w : Word) :
    AnswersUnpacked (.decpi fb w) s L (payload L fb.toNat (w.toNat % 2 ^ (8 * (L - 1))))
      (fun u => pattern (zigzagOut u)) := by
  have value := zigzagDecode_toNat (unpack L fb (packedFollow w L))
  rw [unpack_packedFollow_toNat announces.1] at value
  refine answersUnpacked_of_deliver announces.2.1 value ?_
  rw [exec_decpi_eq_deliver hs, decodePacked_eq announces, apply_ite signedResult]
  rfl

/-- No first byte announces length 0, so an empty slice is short of every length (42_decode.md R134). -/
theorem answers_deci_empty (B : Buf) : Answers (.deci 0 B) s 1 0 0 noBytes := by
  have announces := decodedLen_announces (bufByte B 0)
  exact (answersDecode_deci hs announces 0).1 (Nat.not_le.mpr announces.1)

end SignedDecodes

/-- Settles O37: the zigzag step rewrites the value of a success and leaves the checks of the unsigned form alone. -/
theorem signedDecodesAnswerTheSignedValue : Obligations.SignedDecodesAnswerTheSignedValue := fun _ hs =>
  ⟨answers_deci_empty hs, fun n _ _ announces => answersDecode_deci hs announces n,
    fun n _ B _ announces => answersDecode_decsi hs announces n B,
    fun _ w _ announces => answersUnpacked_decpi hs announces w⟩

/-- The zigzag step after decoding undoes the one before encoding. -/
theorem signedResult_zigzagEncode (L : Nat) (a : Word) :
    signedResult (.ok { len := L, val := zigzagEncode a }) = .ok { len := L, val := a } := by
  rw [signedResult, zigzagDecode_zigzagEncode]

/-- Settles O39: the unsigned round trip gives the zigzag image back, and the zigzag step the operand. -/
theorem signedRoundTrip : Obligations.SignedRoundTrip := by
  refine fun a s hs => ⟨_, exec_enci_next hs a, fun n complete => ?_⟩
  rw [respond_encodeValue_rlen] at complete ⊢
  refine answers_of_deliver_ok (encodedLen_least _).2.1 ?_
  rw [exec_deci_eq_deliver (s := respond _ s) hs]
  exact congrArg (deliver · _)
    ((congrArg signedResult (decodeSlice_encodeValue complete)).trans (signedResult_zigzagEncode _ a))

end Sys2Proof.Machine
end

section
/-! PROOFS. The packets: the fields of the request vector, the wire format's length classes, and that decode and encode
agree (30_encoding.md Parts A and B). -/

namespace Sys2Proof.Machine

open Sys2Proof

/-! ### The request vector -/

section RequestVector

variable (op n : BitVec 4) (fb : Byte) (a : Word) (B : Buf)

/-- `REQ[87+8i:80+8i]` is `IBUF[i]` (30_encoding.md R70). -/
theorem packRequest_ibuf {i : Nat} (hi : i < 9) :
    (packRequest op n fb a B).extractLsb' (80 + 8 * i) 8 = bufByte B i := by
  rw [← bufByte_bufOfFn (fun i => (packRequest op n fb a B).extractLsb' (80 + 8 * i) 8) hi]
  exact congrArg (bufByte · i) (reqIbuf_packRequest op n fb a B)

/-- Byte 0 is `{n, op}`: the two lowest fields side by side. -/
theorem packRequest_byte_zero :
    ((packRequest op n fb a B).extractLsb' 0 8).toNat = 16 * n.toNat + op.toNat := by
  have hop := op.isLt
  have hn := n.isLt
  simp only [BitVec.extractLsb'_toNat, packRequest_toNat, Nat.shiftRight_eq_div_pow]
  omega

/-- Bytes 2 to 9 are the little-endian bytes of `a`: byte `j` of a field at bit 16 is byte `j + 2` of the vector. -/
theorem packRequest_byte_a {j : Nat} (hj : j < 8) :
    ((packRequest op n fb a B).extractLsb' (8 * (j + 2)) 8).toNat = a.toNat / 2 ^ (8 * j) % 256 := by
  have field : 8 * (j + 2) = 16 + 8 * j := by omega
  have inside : 8 * j + 8 ≤ 64 := by omega
  have word : (packRequest op n fb a B).extractLsb' 16 64 = a := reqA_packRequest op n fb a B
  rw [field, ← extractLsb'_of_field inside, word, BitVec.extractLsb'_toNat, Nat.shiftRight_eq_div_pow]

end RequestVector

/-- Settles O17: the fields lie at the bits R70 lists, and its byte view is read off the fields. -/
theorem requestVectorHoldsItsFields : Obligations.RequestVectorHoldsItsFields := by
  intro op n fb a B
  refine ⟨reqOp_packRequest op n fb a B, reqN_packRequest op n fb a B, reqFb_packRequest op n fb a B,
    reqA_packRequest op n fb a B, fun i hi => packRequest_ibuf op n fb a B hi, packRequest_byte_zero op n fb a B,
    fun k h2 h9 => ?_, fun k h10 h18 => ?_⟩
  · obtain ⟨j, rfl⟩ := Nat.exists_eq_add_of_le' h2
    exact packRequest_byte_a op n fb a B (by omega)
  · obtain ⟨i, rfl⟩ := Nat.exists_eq_add_of_le h10
    rw [Nat.mul_add, Nat.add_sub_cancel_left]
    exact packRequest_ibuf op n fb a B (by omega)

/-- Settles O53: the samples are evaluated by the decoder. -/
theorem sampleWordsDecodeToTheirInstructions : Obligations.SampleWordsDecodeToTheirInstructions := by
  unfold Obligations.SampleWordsDecodeToTheirInstructions
  decide

/-! ### The first byte -/

/-- The row a first byte matches is the length it announces (30_encoding.md R60). -/
theorem rowMatches_iff (b : Byte) :
    ∀ j < 9, rowMatches b (wireRows.getD j (0, 0)) = true ↔ Announces b.toNat (j + 1) := by
  revert b
  decide

/-- Settles O16: the matching row is the announced length, and a byte announces one length only. -/
theorem everyFirstByteMatchesExactlyOneRow : Obligations.EveryFirstByteMatchesExactlyOneRow := by
  intro b
  have announces := decodedLen_announces b
  obtain ⟨k, hk⟩ := Nat.exists_eq_add_of_le' announces.1
  rw [hk] at announces
  refine ⟨k, announces.2.1, fun j hj => ?_, announces⟩
  rw [rowMatches_iff b j hj]
  constructor
  · exact fun other => Nat.succ.inj (announces_unique other announces)
  · rintro rfl
    exact announces

theorem wireLen_eq {b : Byte} {L : Nat} (announces : Announces b.toNat L) : wireLen b = L :=
  announces_unique (wireLen_announces b) announces

theorem append_toNat {m n : Nat} (p : BitVec m) (x : BitVec n) : (p ++ x).toNat = p.toNat * 2 ^ n + x.toNat := by
  rw [BitVec.toNat_append, ← Nat.shiftLeft_add_eq_or_of_lt x.isLt, Nat.shiftLeft_eq]

/-- `L - 1` one bits, a zero bit and `8 - L` payload bits announce length `L` (30_encoding.md R60). -/
theorem announces_append (L : Nat) (h1 : 1 ≤ L) (h7 : L ≤ 7) {p : BitVec L} (hp : p.toNat = 2 ^ L - 2)
    (x : BitVec (8 - L)) : Announces (p ++ x).toNat L := by
  have payloadBits := x.isLt
  rw [append_toNat, hp]
  interval_cases L <;> omega

/-- A first byte that announces length `L` of 1 to 7 is those `L` bits above its payload bits. -/
theorem append_setWidth_of_announces (L : Nat) (h7 : L ≤ 7) {b : Byte} (announces : Announces b.toNat L)
    (p : BitVec L) (hp : p.toNat = 2 ^ L - 2) : (p ++ b.setWidth (8 - L)).toNat = b.toNat := by
  obtain ⟨h1, -, low, high⟩ := announces
  rw [append_toNat, BitVec.toNat_setWidth, hp]
  interval_cases L <;> omega

/-- The value of a wire encoding of class 1 to 7: the payload bits below the follow number (30_encoding.md R61). -/
theorem payload_append (L : Nat) (h7 : L ≤ 7) {p : BitVec L} (x : BitVec (8 - L)) {F f : Nat} (hF : F = f) :
    payload L (p ++ x).toNat F = x.toNat + f * 2 ^ (8 - L) := by
  rw [payload, if_pos h7, append_toNat, Nat.mul_add_mod', Nat.mod_eq_of_lt x.isLt, hF]

theorem toNat_setWidth_64 {w : Nat} (h : w ≤ 64) (f : BitVec w) : (f.setWidth 64).toNat = f.toNat :=
  BitVec.toNat_setWidth_of_le h

theorem ofNat_toNat_setWidth {w : Nat} (h : w ≤ 64) (f : BitVec w) : BitVec.ofNat w (f.setWidth 64).toNat = f := by
  rw [toNat_setWidth_64 h, BitVec.ofNat_toNat, BitVec.setWidth_eq]

/-! ### The length classes -/

/-- `i` is the wire instruction of length class `L` with first byte `b` and follow number `F` (30_encoding.md R60). -/
inductive IsWire : Instr → Nat → Byte → Word → Prop
  | l1 (x) : IsWire (.wireL1 x) 1 (0b0#1 ++ x) 0
  | l2 (x f) : IsWire (.wireL2 x f) 2 (0b10#2 ++ x) (f.setWidth 64)
  | l3 (x f) : IsWire (.wireL3 x f) 3 (0b110#3 ++ x) (f.setWidth 64)
  | l4 (x f) : IsWire (.wireL4 x f) 4 (0b1110#4 ++ x) (f.setWidth 64)
  | l5 (x f) : IsWire (.wireL5 x f) 5 (0b11110#5 ++ x) (f.setWidth 64)
  | l6 (x f) : IsWire (.wireL6 x f) 6 (0b111110#6 ++ x) (f.setWidth 64)
  | l7 (x f) : IsWire (.wireL7 x f) 7 (0b1111110#7 ++ x) (f.setWidth 64)
  | l8 (f) : IsWire (.wireL8 f) 8 0xFE#8 (f.setWidth 64)
  | l9 (f) : IsWire (.wireL9 f) 9 0xFF#8 f

/-- The value a wire instruction carries (30_encoding.md R61 to R63). -/
def wireValue : Instr → Nat
  | .wireL1 x => x.toNat
  | .wireL2 x f => x.toNat + f.toNat * 2 ^ 6
  | .wireL3 x f => x.toNat + f.toNat * 2 ^ 5
  | .wireL4 x f => x.toNat + f.toNat * 2 ^ 4
  | .wireL5 x f => x.toNat + f.toNat * 2 ^ 3
  | .wireL6 x f => x.toNat + f.toNat * 2 ^ 2
  | .wireL7 x f => x.toNat + f.toNat * 2 ^ 1
  | .wireL8 f => f.toNat
  | .wireL9 f => f.toNat
  | _ => 0

/-- The instructions a wire packet carries are the nine length classes. -/
theorem exists_isWire {i : Instr} {bytes : List Byte} (h : encode i = .wire bytes) : ∃ L b F, IsWire i L b F := by
  cases i with
  | wireL1 x => exact ⟨_, _, _, .l1 x⟩
  | wireL2 x f => exact ⟨_, _, _, .l2 x f⟩
  | wireL3 x f => exact ⟨_, _, _, .l3 x f⟩
  | wireL4 x f => exact ⟨_, _, _, .l4 x f⟩
  | wireL5 x f => exact ⟨_, _, _, .l5 x f⟩
  | wireL6 x f => exact ⟨_, _, _, .l6 x f⟩
  | wireL7 x f => exact ⟨_, _, _, .l7 x f⟩
  | wireL8 f => exact ⟨_, _, _, .l8 f⟩
  | wireL9 f => exact ⟨_, _, _, .l9 f⟩
  | enclen | declen | enc | dec | decs | decp | zzenc | zzdec | enci | deci | decsi | decpi
  | reserved12 | reserved13 | reserved14 | reserved15 => cases h

namespace IsWire

variable {i : Instr} {L : Nat} {b : Byte} {F : Word} (h : IsWire i L b F)
include h

theorem announces : Announces b.toNat L := by
  cases h with
  | l1 x => exact announces_append 1 (by decide) (by decide) rfl x
  | l2 x => exact announces_append 2 (by decide) (by decide) rfl x
  | l3 x => exact announces_append 3 (by decide) (by decide) rfl x
  | l4 x => exact announces_append 4 (by decide) (by decide) rfl x
  | l5 x => exact announces_append 5 (by decide) (by decide) rfl x
  | l6 x => exact announces_append 6 (by decide) (by decide) rfl x
  | l7 x => exact announces_append 7 (by decide) (by decide) rfl x
  | l8 | l9 => decide

theorem follow_lt : F.toNat < 2 ^ (8 * (L - 1)) := by
  cases h with
  | l1 => decide
  | l2 _ f | l3 _ f | l4 _ f | l5 _ f | l6 _ f | l7 _ f | l8 f =>
    have bound := f.isLt
    simp
    omega
  | l9 => exact F.isLt

theorem encode_eq : encode i = .wire (b :: leBytes (L - 1) F.toNat) := by
  cases h with
  | l1 | l9 => rfl
  | l2 _ f | l3 _ f | l4 _ f | l5 _ f | l6 _ f | l7 _ f | l8 f =>
    rw [toNat_setWidth_64 (by decide)]
    rfl

theorem wireInstr_eq : wireInstr L b F.toNat = i := by
  have number {w : Nat} (hw : w ≤ 64) (f : BitVec w) := ofNat_toNat_setWidth hw f
  cases h with
  | l1 x => exact congrArg Instr.wireL1 BitVec.setWidth_append_eq_right
  | l2 x f => exact congrArg₂ Instr.wireL2 BitVec.setWidth_append_eq_right (number (by decide) f)
  | l3 x f => exact congrArg₂ Instr.wireL3 BitVec.setWidth_append_eq_right (number (by decide) f)
  | l4 x f => exact congrArg₂ Instr.wireL4 BitVec.setWidth_append_eq_right (number (by decide) f)
  | l5 x f => exact congrArg₂ Instr.wireL5 BitVec.setWidth_append_eq_right (number (by decide) f)
  | l6 x f => exact congrArg₂ Instr.wireL6 BitVec.setWidth_append_eq_right (number (by decide) f)
  | l7 x f => exact congrArg₂ Instr.wireL7 BitVec.setWidth_append_eq_right (number (by decide) f)
  | l8 f => exact congrArg Instr.wireL8 (number (by decide) f)
  | l9 f => exact congrArg Instr.wireL9 (by simp)

theorem exec_eq_deliver (s : State) : exec i s = deliver (finishDecode L b F) s := by
  cases h <;> rfl

/-- Unpacking the first byte and the follow number gives the value the instruction carries. -/
theorem payload_eq : payload L b.toNat F.toNat = wireValue i := by
  have number {w : Nat} (hw : w ≤ 64) (f : BitVec w) := toNat_setWidth_64 hw f
  cases h with
  | l1 x => exact payload_append 1 (by decide) x (f := 0) rfl
  | l2 x f => exact payload_append 2 (by decide) x (number (by decide) f)
  | l3 x f => exact payload_append 3 (by decide) x (number (by decide) f)
  | l4 x f => exact payload_append 4 (by decide) x (number (by decide) f)
  | l5 x f => exact payload_append 5 (by decide) x (number (by decide) f)
  | l6 x f => exact payload_append 6 (by decide) x (number (by decide) f)
  | l7 x f => exact payload_append 7 (by decide) x (number (by decide) f)
  | l8 f => exact number (by decide) f
  | l9 => rfl

/-- The canonicity check of the encoding is the decoder's (30_encoding.md R65, R66). -/
theorem wireCanonical_iff : i.wireCanonical = true ↔ Canonical L (wireValue i) := by
  cases h with
  | l1 => simp [Instr.wireCanonical, Canonical]
  | l2 | l3 | l4 | l5 | l6 | l7 => simp [Instr.wireCanonical, Canonical, wireValue, Nat.mul_comm]
  | l8 | l9 => simp [Instr.wireCanonical, Canonical, wireValue]

/-- A wire encoding always has all its bytes (42_decode.md R132, steps 4 to 6). -/
theorem answersUnpacked (s : State) : AnswersUnpacked i s L (wireValue i) (fun v => v) := by
  have h1 := h.announces.1
  have bound : L ≤ 7 → F.toNat < 2 ^ (8 * (L - 1)) := fun _ => h.follow_lt
  rw [← h.payload_eq]
  refine answersUnpacked_of_deliver h.announces.2.1 (unpack_toNat h1 b F bound) ?_
  rw [h.exec_eq_deliver, finishDecode_eq h1 b F bound]

end IsWire

/-! ### What the wire classes answer -/

/-- Settles O47: each class hands its first byte and follow number to the shared end of the decoder. -/
theorem wireClassesAnswerTheirValue : Obligations.WireClassesAnswerTheirValue := fun s =>
  ⟨fun x => ((IsWire.l1 x).answersUnpacked s).1 (.inl rfl), fun x f => (IsWire.l2 x f).answersUnpacked s,
    fun x f => (IsWire.l3 x f).answersUnpacked s, fun x f => (IsWire.l4 x f).answersUnpacked s,
    fun x f => (IsWire.l5 x f).answersUnpacked s, fun x f => (IsWire.l6 x f).answersUnpacked s,
    fun x f => (IsWire.l7 x f).answersUnpacked s, fun f => (IsWire.l8 f).answersUnpacked s,
    fun f => (IsWire.l9 f).answersUnpacked s⟩

/-- A word holds the follow bytes of its own number. -/
theorem packLe_leBytes {k : Nat} {F : Word} (h : F.toNat < 2 ^ (8 * k)) : packLe (leBytes k F.toNat) = F := by
  rw [packLe, leNat_leBytes k _ h, BitVec.ofNat_toNat, BitVec.setWidth_eq]

/-- `DEC` of exactly the bytes an encoding announces (30_encoding.md R76, 42_decode.md R135). -/
theorem exec_asmDec_eq_deliver {b : Byte} {follow : List Byte} {L : Nat} (announces : Announces b.toNat L)
    (len : follow.length = L - 1) (s : State) :
    exec (asmDec (b :: follow)) s = deliver (finishDecode L b (packLe follow)) s := by
  obtain ⟨h1, h9, -⟩ := id announces
  have whole : (b :: follow).length = L := by rw [List.length_cons]; omega
  have count : (sliceCount (b :: follow)).toNat = L := by
    rw [sliceCount, whole, Nat.min_eq_left (b := Config.maxLen) h9, BitVec.toNat_ofNat]
    omega
  have slice : bufSlice (bufOfList (b :: follow)) 0 L = b :: follow := by
    rw [bufSlice_bufOfList (le_of_eq whole.symm) h9, ← whole, List.take_length]
  rw [← Nat.sub_add_cancel h1, bufSlice_succ] at slice
  obtain ⟨first, tail⟩ := List.cons.inj slice
  have fits : (b :: follow).take Config.maxLen = b :: follow := List.take_of_length_le (whole ▸ h9)
  have announces' : Announces (bufByte (bufOfList (b :: follow)) 0).toNat L := first.symm ▸ announces
  rw [asmDec, exec_dec_eq_deliver, fits, count, decodeSlice_of_complete announces' (Nat.le_refl L), first, tail]

/-- Settles O48: both hand the same first byte and follow number to the shared end of the decoder. -/
theorem wireClassAnswersAsDecOfItsBytes : Obligations.WireClassAnswersAsDecOfItsBytes := by
  intro i bytes s encoding
  obtain ⟨L, b, F, wire⟩ := exists_isWire encoding
  obtain rfl : _ = bytes := Packet.wire.inj (wire.encode_eq.symm.trans encoding)
  rw [wire.exec_eq_deliver, exec_asmDec_eq_deliver wire.announces (leBytes_length _ _), packLe_leBytes wire.follow_lt]

/-! ### Which instructions end with `IllegalOp` -/

theorem endsWith_unique {i : Instr} {s : State} {k k' : Nat} (h : EndsWith i s k) (h' : EndsWith i s k') : k = k' := by
  obtain ⟨t, next, status⟩ := h
  exact status.symm.trans ((endsWith_iff_of_next next).mp h')

/-- The row of a selected operation has no `IllegalOp` (60_exceptions.md R179). -/
theorem three_notMem_statusColumn {i : Instr} {c : Config} (h : i.selects c = true) :
    3 ∉ statusColumn c.hasSigned i := by
  cases i with
  | reserved12 | reserved13 | reserved14 | reserved15 => cases h
  | zzenc | zzdec | enci | deci | decsi | decpi =>
    have unit : c.hasSigned = true := by simpa [Instr.selects, Instr.notReserved, Instr.isSigned] using h
    simp [statusColumn, unit]
  | enclen | declen | enc | dec | decs | decp
  | wireL1 | wireL2 | wireL3 | wireL4 | wireL5 | wireL6 | wireL7 | wireL8 | wireL9 => simp [statusColumn]

/-- A selected instruction ends with `OK` or an error of its operands. -/
theorem not_endsWith_illegalOp {i : Instr} {s : State} (selected : i.selects s.config = true) : ¬ EndsWith i s 3 := by
  intro illegal
  cases packet : encode i with
  | request r =>
    obtain ⟨k, row, ends⟩ := exists_status_of_request packet s
    exact three_notMem_statusColumn selected (endsWith_unique ends illegal ▸ row)
  | wire bytes =>
    obtain ⟨L, b, F, wire⟩ := exists_isWire packet
    obtain ⟨k, row, ends⟩ := exists_status_of_answersUnpacked (wire.answersUnpacked s)
    obtain rfl := endsWith_unique ends illegal
    simp at row

/-- Settles O44: what selects nothing raises `IllegalOp`, and nothing else does. -/
theorem illegalOpExactlyWhenNothingIsSelected : Obligations.IllegalOpExactlyWhenNothingIsSelected := by
  refine fun i s => ⟨fun illegal => ?_, fun h => endsWith_of_answers (answers_illegalOp_of_not_selects h)⟩
  exact Bool.eq_false_iff.mpr fun selected => not_endsWith_illegalOp selected illegal

/-- Settles O49: of a wire encoding the decoder checks canonicity alone, and a well-formed instruction is selected. -/
theorem wellFormedWireClassSucceeds : Obligations.WellFormedWireClassSucceeds := by
  refine ⟨fun i bytes s encoding => ?_, fun i s wellFormed => not_endsWith_illegalOp ?_⟩
  · obtain ⟨L, b, F, wire⟩ := exists_isWire encoding
    obtain ⟨accepted, rejected⟩ := wire.answersUnpacked s
    rw [wire.wireCanonical_iff]
    refine ⟨fun ok => ?_, fun canonical => endsWith_of_answers (accepted canonical)⟩
    by_contra redundant
    cases endsWith_unique ok (endsWith_of_answers (rejected redundant))
  · rw [Instr.wellFormed, Bool.and_eq_true] at wellFormed
    exact wellFormed.1

/-! ### Decode and encode agree -/

/-- The wire decoder on a first byte that announces length `L` (30_encoding.md R67). -/
theorem decodeWire_cons {b : Byte} {L : Nat} (announces : Announces b.toNat L) (tail : List Byte) :
    decodeWire (b :: tail) =
      if tail.length < L - 1 then .error .truncatedWire
      else .ok (wireInstr L b (leNat (tail.take (L - 1))), tail.drop (L - 1)) := by
  simp only [decodeWire, wireLen_eq announces]

/-- The wire decoder reads an encoding off the front of any byte sequence. -/
theorem IsWire.decodeWire_append {i : Instr} {L : Nat} {b : Byte} {F : Word} (h : IsWire i L b F) (rest : List Byte) :
    decodeWire (b :: leBytes (L - 1) F.toNat ++ rest) = .ok (i, rest) := by
  have complete : ¬ (leBytes (L - 1) F.toNat ++ rest).length < L - 1 := by simp
  rw [List.cons_append, decodeWire_cons h.announces, if_neg complete, List.take_left' (leBytes_length _ _),
    List.drop_left' (leBytes_length _ _), leNat_leBytes _ _ h.follow_lt, h.wireInstr_eq]

/-- Settles O51: the first byte tells the decoder how many bytes are the encoding's. -/
theorem wireStreamIsSelfDelimiting : Obligations.WireStreamIsSelfDelimiting := by
  intro i bytes rest encoding
  obtain ⟨L, b, F, wire⟩ := exists_isWire encoding
  obtain rfl : _ = bytes := Packet.wire.inj (wire.encode_eq.symm.trans encoding)
  exact wire.decodeWire_append rest

/-- A request decodes to the instruction it was packed from: every field an operation uses reads back. -/
theorem decode_encode_of_request {i : Instr} {r : BitVec 152} (h : encode i = .request r) :
    decode (encode i) = .ok i := by
  cases i with
  | enclen | declen | enc | dec | decs | decp | zzenc | zzdec | enci | deci | decsi | decpi
  | reserved12 | reserved13 | reserved14 | reserved15 => simp [encode, decode, decodeRequest]
  | wireL1 | wireL2 | wireL3 | wireL4 | wireL5 | wireL6 | wireL7 | wireL8 | wireL9 => cases h

/-- Settles O50: the fields of a request read back, and so do the first byte and the follow bytes of a wire encoding. -/
theorem decodeAfterEncodeIsTheInstruction : Obligations.DecodeAfterEncodeIsTheInstruction := by
  intro i
  cases packet : encode i with
  | request r => exact packet ▸ decode_encode_of_request packet
  | wire bytes =>
    have whole := wireStreamIsSelfDelimiting i bytes [] packet
    rw [List.append_nil] at whole
    rw [decode, whole]

/-- The instruction made of a first byte and the follow number it announces is encoded as these bytes. -/
theorem encode_wireInstr {L f : Nat} {b : Byte} (announces : Announces b.toNat L) (hf : f < 2 ^ (8 * (L - 1))) :
    encode (wireInstr L b f) = .wire (b :: leBytes (L - 1) f) := by
  have bytes {k g : Nat} {c : Byte} (hc : c.toNat = b.toNat) (hg : g = f) :
      Packet.wire (c :: leBytes k g) = .wire (b :: leBytes k f) := by rw [BitVec.eq_of_toNat_eq hc, hg]
  obtain ⟨h1, h9, low, -⟩ := id announces
  have byte := b.isLt
  interval_cases L
  · obtain rfl : f = 0 := by omega
    exact bytes (k := 0) (g := 0) (append_setWidth_of_announces 1 (by decide) announces 0b0#1 rfl) rfl
  · exact bytes (append_setWidth_of_announces 2 (by decide) announces 0b10#2 rfl) (Nat.mod_eq_of_lt hf)
  · exact bytes (append_setWidth_of_announces 3 (by decide) announces 0b110#3 rfl) (Nat.mod_eq_of_lt hf)
  · exact bytes (append_setWidth_of_announces 4 (by decide) announces 0b1110#4 rfl) (Nat.mod_eq_of_lt hf)
  · exact bytes (append_setWidth_of_announces 5 (by decide) announces 0b11110#5 rfl) (Nat.mod_eq_of_lt hf)
  · exact bytes (append_setWidth_of_announces 6 (by decide) announces 0b111110#6 rfl) (Nat.mod_eq_of_lt hf)
  · exact bytes (append_setWidth_of_announces 7 (by decide) announces 0b1111110#7 rfl) (Nat.mod_eq_of_lt hf)
  · obtain ⟨-, -, -, high⟩ := announces
    exact bytes (c := 0xFE#8) (by simp at low high ⊢; omega) (Nat.mod_eq_of_lt hf)
  · exact bytes (c := 0xFF#8) (by simp at low ⊢; omega) (Nat.mod_eq_of_lt hf)

/-- Settles O52: the instruction read is encoded as the first byte and the follow bytes it was read from. -/
theorem wireDecodingLosesNothing : Obligations.WireDecodingLosesNothing := by
  intro bytes rest i read
  cases bytes with
  | nil => cases read
  | cons b tail =>
    have announces := wireLen_announces b
    rw [decodeWire_cons announces] at read
    by_cases short : tail.length < wireLen b - 1
    · rw [if_pos short] at read
      cases read
    · rw [if_neg short] at read
      obtain ⟨rfl, rfl⟩ := Prod.mk.inj (Except.ok.inj read)
      have len : (tail.take (wireLen b - 1)).length = wireLen b - 1 := List.length_take_of_le (Nat.le_of_not_lt short)
      have follow := leBytes_leNat (tail.take (wireLen b - 1))
      have bound := leNat_lt (tail.take (wireLen b - 1))
      rw [len] at follow bound
      refine ⟨b :: tail.take (wireLen b - 1), ?_, by simp⟩
      rw [encode_wireInstr announces bound, follow]

end Sys2Proof.Machine
end

section
/-! PROOFS. The step of the block: what every instruction writes, what it leaves alone, and what the registers always
satisfy (10_state.md sections 1 and 2, 60_exceptions.md section 2, 70_reset_and_hazards.md). -/

namespace Sys2Proof.Machine

open Sys2Proof

/-! ### The responses the block writes -/

/-- The responses that occur: a length, a value, a decoded value with its length, an encoding, or an error. -/
inductive Written : Response → Prop
  | okLen {L : Nat} (h9 : L ≤ 9) : Written (okLen L)
  | okVal (val : Word) : Written (okVal val)
  | okDecoded {d : Decoded} (h9 : d.len ≤ 9) : Written (okDecoded d.len d.val)
  | okBytes (a : Word) : Written (okBytes (encodeValue a))
  | error (k : ErrKind) : Written (errResponse k)

/-- A result of the decoder, whose length is that of an encoding. -/
def LengthBounded (r : Except ErrKind Decoded) : Prop := ∀ d, r = .ok d → d.len ≤ 9

theorem lengthBounded_error (k : ErrKind) : LengthBounded (.error k) := fun _ ok => by cases ok

theorem lengthBounded_finishDecode {L : Nat} (h9 : L ≤ 9) (b : Byte) (F : Word) :
    LengthBounded (finishDecode L b F) := by
  intro d ok
  simp only [finishDecode] at ok
  split at ok
  · obtain rfl : _ = d := Except.ok.inj ok
    exact h9
  · cases ok

theorem lengthBounded_decodeSlice (n : Nat) (B : Buf) : LengthBounded (decodeSlice n B) := by
  have announces := decodedLen_announces (bufByte B 0)
  rcases Nat.lt_or_ge n (decodedLen (bufByte B 0)) with short | complete
  · exact decodeSlice_of_short announces short ▸ lengthBounded_error _
  · exact decodeSlice_of_complete announces complete ▸ lengthBounded_finishDecode announces.2.1 _ _

theorem lengthBounded_decodeSplit (n : Nat) (fb : Byte) (B : Buf) : LengthBounded (decodeSplit n fb B) := by
  have announces := decodedLen_announces fb
  rcases Nat.lt_or_ge n (decodedLen fb - 1) with short | complete
  · exact decodeSplit_of_short announces short ▸ lengthBounded_error _
  · exact decodeSplit_of_complete announces complete ▸ lengthBounded_finishDecode announces.2.1 _ _

theorem lengthBounded_decodePacked (fb : Byte) (w : Word) : LengthBounded (decodePacked fb w) := by
  have announces := decodedLen_announces fb
  exact decodePacked_of_announces announces w ▸ lengthBounded_finishDecode announces.2.1 _ _

theorem lengthBounded_signedResult {r : Except ErrKind Decoded} (h : LengthBounded r) :
    LengthBounded (signedResult r) := by
  cases r with
  | error k => exact lengthBounded_error k
  | ok d =>
    intro d' ok
    obtain rfl : _ = d' := Except.ok.inj ok
    exact h d rfl

theorem written_resultResponse {r : Except ErrKind Decoded} (h : LengthBounded r) : Written (resultResponse r) := by
  cases r with
  | ok d => exact .okDecoded (h d rfl)
  | error k => exact .error k

/-! ### Every instruction writes one response, which the build alone can influence -/

/-- What instruction `i` writes in a build with and in a build without the zigzag unit. -/
def Responds (i : Instr) (resp : Bool → Response) : Prop :=
  (∀ hasSigned, Written (resp hasSigned)) ∧ ∀ s, exec i s = .next (respond (resp s.config.hasSigned) s)

section Responds

variable {i : Instr}

theorem exists_responds_of_next {r : Response} (written : Written r) (h : ∀ s, exec i s = .next (respond r s)) :
    ∃ resp, Responds i resp :=
  ⟨fun _ => r, fun _ => written, h⟩

theorem exists_responds_of_deliver {r : Except ErrKind Decoded} (bounded : LengthBounded r)
    (h : ∀ s, exec i s = deliver r s) : ∃ resp, Responds i resp :=
  exists_responds_of_next (written_resultResponse bounded) fun s => (h s).trans (deliver_eq r s)

/-- Behind the gate of the zigzag unit, the build decides between the response and `IllegalOp`. -/
theorem exists_responds_of_withSigned {r : Response} (written : Written r)
    (h : ∀ s, exec i s = withSigned (fun t => .next (respond r t)) s) : ∃ resp, Responds i resp := by
  refine ⟨fun hasSigned => if hasSigned then r else errResponse .illegalOp, fun hasSigned => ?_, fun s => ?_⟩
  · cases hasSigned
    · exact .error .illegalOp
    · exact written
  · rw [h]
    obtain ⟨unit, gate⟩ | ⟨unit, gate⟩ := withSigned_cases (fun t => .next (respond r t)) s
    · rw [gate, unit]
      rfl
    · rw [gate, unit]
      rfl

theorem exists_responds_of_withSigned_deliver {r : Except ErrKind Decoded} (bounded : LengthBounded r)
    (h : ∀ s, exec i s = withSigned (deliver (signedResult r)) s) : ∃ resp, Responds i resp :=
  exists_responds_of_withSigned (written_resultResponse (lengthBounded_signedResult bounded)) fun s =>
    (h s).trans (congrArg (withSigned · s) (funext (deliver_eq _)))

theorem exists_responds_of_isWire {L : Nat} {b : Byte} {F : Word} (wire : IsWire i L b F) :
    ∃ resp, Responds i resp :=
  exists_responds_of_deliver (lengthBounded_finishDecode wire.announces.2.1 b F) wire.exec_eq_deliver

end Responds

/-- Every instruction completes, with one of the block's responses, which depends on no register and no event. -/
theorem exists_responds (i : Instr) : ∃ resp, Responds i resp := by
  cases i with
  | enclen a => exact exists_responds_of_next (.okLen (encodedLen_least a).2.1) fun _ => rfl
  | declen fb => exact exists_responds_of_next (.okLen (decodedLen_announces fb).2.1) fun _ => rfl
  | enc a => exact exists_responds_of_next (.okBytes a) (exec_enc_next a)
  | dec n B => exact exists_responds_of_deliver (lengthBounded_decodeSlice _ B) (exec_dec_eq_deliver n B)
  | decs n fb B => exact exists_responds_of_deliver (lengthBounded_decodeSplit _ fb B) (exec_decs_eq_deliver n fb B)
  | decp fb w => exact exists_responds_of_deliver (lengthBounded_decodePacked fb w) (exec_decp_eq_deliver fb w)
  | zzenc a => exact exists_responds_of_withSigned (.okVal (zigzagEncode a)) fun _ => rfl
  | zzdec a => exact exists_responds_of_withSigned (.okVal (zigzagDecode a)) fun _ => rfl
  | enci a => exact exists_responds_of_withSigned (.okBytes (zigzagEncode a)) fun _ => rfl
  | deci n B =>
    exact exists_responds_of_withSigned_deliver (lengthBounded_decodeSlice _ B) (exec_deci_eq_withSigned n B)
  | decsi n fb B =>
    exact exists_responds_of_withSigned_deliver (lengthBounded_decodeSplit _ fb B) (exec_decsi_eq_withSigned n fb B)
  | decpi fb w =>
    exact exists_responds_of_withSigned_deliver (lengthBounded_decodePacked fb w) (exec_decpi_eq_withSigned fb w)
  | reserved12 | reserved13 | reserved14 | reserved15 =>
    exact exists_responds_of_next (.error .illegalOp) (exec_of_reserved rfl)
  | wireL1 x => exact exists_responds_of_isWire (.l1 x)
  | wireL2 x f => exact exists_responds_of_isWire (.l2 x f)
  | wireL3 x f => exact exists_responds_of_isWire (.l3 x f)
  | wireL4 x f => exact exists_responds_of_isWire (.l4 x f)
  | wireL5 x f => exact exists_responds_of_isWire (.l5 x f)
  | wireL6 x f => exact exists_responds_of_isWire (.l6 x f)
  | wireL7 x f => exact exists_responds_of_isWire (.l7 x f)
  | wireL8 f => exact exists_responds_of_isWire (.l8 f)
  | wireL9 f => exact exists_responds_of_isWire (.l9 f)

/-- The one next state of an instruction is the response written over the state. -/
theorem Responds.eq_of_next {i : Instr} {resp : Bool → Response} (h : Responds i resp) {s t : State}
    (next : exec i s = .next t) : t = respond (resp s.config.hasSigned) s := by
  rw [h.2 s] at next
  exact (Host.Outcome.next.inj next).symm

/-- One step: with nothing presented, nothing; otherwise the oldest event leaves the script and one of the block's
responses is written. -/
theorem step_writes (s : State) :
    (s.pending = [] ∧ step s = .next s) ∨
      ∃ e rest r, s.pending = e :: rest ∧ Written r ∧ step s = .next (respond r (withPending rest s)) := by
  obtain h | ⟨rest, hp, hs⟩ | ⟨p, rest, i, hp, -, hs⟩ | ⟨p, rest, e, hp, -, hs⟩ := step_cases s
  · exact .inl h
  · exact .inr ⟨_, rest, _, hp, .okLen (Nat.zero_le 9), hs⟩
  · obtain ⟨resp, written, next⟩ := exists_responds i
    exact .inr ⟨_, rest, _, hp, written _, hs.trans (next _)⟩
  · exact .inr ⟨_, rest, _, hp, .error .truncated, hs⟩

/-! ### What a step does with the oldest event -/

section OldestEvent

variable {s : State} {p : Packet} {rest : List HostEvent}

theorem step_of_reset (hp : s.pending = .reset :: rest) : step s = .next (resetRegisters (withPending rest s)) := by
  obtain ⟨h, -⟩ | ⟨_, h, hs⟩ | ⟨_, _, _, h, -⟩ | ⟨_, _, _, h, -⟩ := step_cases s
  all_goals rw [hp] at h; cases h
  exact hs

theorem step_of_decode_ok {i : Instr} (hp : s.pending = .present p :: rest) (decoded : decode p = .ok i) :
    step s = exec i (withPending rest s) := by
  obtain ⟨h, -⟩ | ⟨_, h, -⟩ | ⟨_, _, _, h, hd, hs⟩ | ⟨_, _, _, h, hd, -⟩ := step_cases s
  all_goals rw [hp] at h; cases h
  all_goals rw [decoded] at hd; cases hd
  exact hs

theorem step_of_decode_error {e : DecodeError} (hp : s.pending = .present p :: rest) (undecoded : decode p = .error e) :
    step s = .next (raise .truncated (withPending rest s)) := by
  obtain ⟨h, -⟩ | ⟨_, h, -⟩ | ⟨_, _, _, h, hd, -⟩ | ⟨_, _, _, h, hd, hs⟩ := step_cases s
  all_goals rw [hp] at h; cases h
  all_goals rw [undecoded] at hd; cases hd
  exact hs

end OldestEvent

/-- Settles O2: a reset event resets the registers of the state with the event removed. -/
theorem resetEventClearsTheRegistersAndNothingElse : Obligations.ResetEventClearsTheRegistersAndNothingElse :=
  fun _ _ hp => ⟨_, step_of_reset hp, resetRegisters_shows_zeros _, rfl, rfl⟩

/-- Settles O3: the packet decodes, so the step runs its instruction. -/
theorem stepRunsTheDecodedInstruction : Obligations.StepRunsTheDecodedInstruction :=
  fun _ _ _ _ hp decoded => step_of_decode_ok hp decoded

/-- Settles O4: with an empty script there is no event to answer. -/
theorem stepWithNothingPresentedHoldsItsState : Obligations.StepWithNothingPresentedHoldsItsState := by
  intro s empty
  obtain ⟨-, holds⟩ | ⟨e, rest, r, hp, -⟩ := step_writes s
  · exact holds
  · rw [empty] at hp
    cases hp

/-- A wire packet with fewer bytes than its first byte announces is no instruction (42_decode.md R131, R134). -/
theorem decode_wire_of_short {bytes : List Byte} {L : Nat} (announces : Announces (bytes.headD 0).toNat L)
    (short : bytes.length < L) : ∃ e, decode (.wire bytes) = .error e := by
  cases bytes with
  | nil => exact ⟨.emptyWire, rfl⟩
  | cons b tail =>
    have missing : tail.length < L - 1 := Nat.lt_sub_of_add_lt short
    rw [List.headD_cons] at announces
    exact ⟨.truncatedWire, by rw [decode, decodeWire_cons announces, if_pos missing]⟩

/-- Settles O5: a short wire packet decodes to nothing, and the step raises `Truncated`. -/
theorem shortWirePacketAnswersTruncated : Obligations.ShortWirePacketAnswersTruncated := by
  intro s bytes rest L hp announces short
  obtain ⟨e, undecoded⟩ := decode_wire_of_short announces short
  exact ⟨_, step_of_decode_error hp undecoded, raise_shows .truncated _, rfl, rfl⟩

/-! ### Completion, and what is left alone -/

/-- Settles O6: whatever a step does, it answers a next state. -/
theorem everyStepCompletes : Obligations.EveryStepCompletes := by
  intro s
  obtain ⟨-, holds⟩ | ⟨e, rest, r, -, -, writes⟩ := step_writes s
  · exact ⟨s, holds⟩
  · exact ⟨_, writes⟩

/-- Settles O8: an instruction writes the response registers, and a step takes an event from the script besides. -/
theorem nothingChangesTheBuildOrTheScript : Obligations.NothingChangesTheBuildOrTheScript := by
  refine ⟨fun i s t next => ?_, fun s t next => ?_⟩
  · obtain ⟨resp, responds⟩ := exists_responds i
    obtain rfl := responds.eq_of_next next
    exact ⟨rfl, rfl⟩
  · obtain ⟨-, holds⟩ | ⟨e, rest, r, -, -, writes⟩ := step_writes s
    · obtain rfl := Host.Outcome.next.inj (holds.symm.trans next)
      rfl
    · obtain rfl := Host.Outcome.next.inj (writes.symm.trans next)
      rfl

/-- Settles O9: the response is a function of the instruction and the build, and the build stays. -/
theorem responseDependsOnTheRequestAlone : Obligations.ResponseDependsOnTheRequestAlone := by
  refine ⟨fun i s s' t t' build next next' => ?_, fun i s t next => ?_⟩
  · obtain ⟨resp, responds⟩ := exists_responds i
    rw [responds.eq_of_next next, responds.eq_of_next next', build]
    exact sameResponse_respond _ s s'
  · obtain ⟨resp, responds⟩ := exists_responds i
    obtain rfl := responds.eq_of_next next
    exact ⟨_, responds.2 _, sameResponse_respond _ s _⟩

/-- Settles O41: a reserved code selects nothing in any build. -/
theorem reservedCodesAnswerIllegalOp : Obligations.ReservedCodesAnswerIllegalOp := by
  intro s i reserved
  refine answers_of_illegalOp (exec_of_reserved ?_ s)
  simp only [List.mem_cons, List.not_mem_nil, or_false] at reserved
  rcases reserved with rfl | rfl | rfl | rfl <;> rfl

/-! ### The script is answered in order -/

theorem run_succ {s t : State} (next : step s = .next t) (k : Nat) :
    Sys2Proof.core.run (k + 1) s = Sys2Proof.core.run k t := by
  have coreNext : Sys2Proof.core.step s = .next t := next
  simp only [Host.Core.run, coreNext]

/-- A step per event before a request and one for itself leave the request's response in the registers. -/
theorem run_script {p : Packet} {i : Instr} {resp : Bool → Response} (responds : Responds i resp)
    (decoded : decode p = .ok i) (rest : List HostEvent) (es : List HostEvent) :
    ∀ s : State, s.pending = es ++ .present p :: rest →
      ∃ t, Sys2Proof.core.run (es.length + 1) s = .next t ∧ t.pending = rest ∧ t.config = s.config ∧
        SameResponse t (respond (resp s.config.hasSigned) s) := by
  induction es with
  | nil =>
    intro s hp
    have next := (step_of_decode_ok hp decoded).trans (responds.2 _)
    exact ⟨_, run_succ next 0, rfl, rfl, sameResponse_respond _ _ s⟩
  | cons e es ih =>
    intro s hp
    obtain ⟨empty, -⟩ | ⟨e', later, r, hp', -, writes⟩ := step_writes s
    · rw [hp] at empty
      cases empty
    · obtain ⟨rfl, rfl⟩ := List.cons.inj (hp.symm.trans hp')
      obtain ⟨t, runs, pending, config, same⟩ := ih (respond r (withPending (es ++ .present p :: rest) s)) rfl
      exact ⟨t, (run_succ writes _).trans runs, pending, config, same⟩

/-- Settles O7: no earlier event shows in the response, since it depends on the instruction and the build alone. -/
theorem scriptIsAnsweredInOrder : Obligations.ScriptIsAnsweredInOrder := by
  intro es rest p i s hp decoded
  obtain ⟨resp, responds⟩ := exists_responds i
  obtain ⟨t, runs, pending, config, same⟩ := run_script responds decoded rest es s hp
  exact ⟨t, _, runs, pending, config, responds.2 s, same⟩

/-! ### The invariant of the registers -/

/-- A slice that decodes carries a canonical value (42_decode.md R132). -/
theorem canonical_of_decodeSlice_ok {n L : Nat} {B : Buf} {d : Decoded} (announces : Announces (bufByte B 0).toNat L)
    (ok : decodeSlice n B = .ok d) : Canonical L (slicePayload L B) := by
  by_contra redundant
  rw [decodeSlice_eq announces, if_neg redundant] at ok
  split at ok <;> cases ok

/-- A response without bytes is legal if its numbers are written ones, and zero after an error. -/
theorem legal_respond_of_zeroBuf {r : Response} {s : State} (status : r.stat.toNat ≤ 3) (length : r.len.toNat ≤ 9)
    (failure : r.stat.toNat ≠ 0 → r.len.toNat = 0 ∧ r.val.toNat = 0) (empty : r.buf = zeroBuf) :
    (respond r s).Legal := by
  have zeros (i : Nat) : (bufByte (respond r s).rbuf i).toNat = 0 := by
    rw [respond_rbuf, empty, bufByte_zeroBuf]
    rfl
  exact
    { statusWritten := status
      lengthWritten := length
      errorsCarryNothing := fun failed => ⟨(failure failed).1, (failure failed).2, fun i _ => zeros i⟩
      zeroAboveLength := fun i _ _ => zeros i
      bufferCanonical := fun ⟨i, _, nonzero⟩ => absurd (zeros i) nonzero }

/-- The response that carries an encoding is legal: it holds the canonical bytes, zeros above them, and no value. -/
theorem legal_respond_encodeValue (a : Word) (s : State) : (respond (okBytes (encodeValue a)) s).Legal := by
  have least := encodedLen_least a
  have length := respond_encodeValue_rlen a s
  have announces := encodeValue_head_announces least
  have decodes := decodeSlice_encodeValue (a := a) least.2.1
  exact
    { statusWritten := Nat.zero_le 3
      lengthWritten := length ▸ least.2.1
      errorsCarryNothing := fun failed => absurd rfl failed
      zeroAboveLength := fun i hi above => by
        rw [length] at above
        rw [respond_encodeValue_rbuf a s hi, layoutByte, if_pos above]
      bufferCanonical := fun _ => length.symm ▸ ⟨rfl, announces, canonical_of_decodeSlice_ok announces decodes⟩ }

/-- Every response the block writes leaves the registers legal. -/
theorem legal_respond {r : Response} (written : Written r) (s : State) : (respond r s).Legal := by
  have truncates {L : Nat} (h9 : L ≤ 9) : (BitVec.ofNat 4 L).toNat ≤ 9 := Nat.le_trans (Nat.mod_le L 16) h9
  cases written with
  | okLen h9 => exact legal_respond_of_zeroBuf (Nat.zero_le 3) (truncates h9) (fun failed => absurd rfl failed) rfl
  | okVal val => exact legal_respond_of_zeroBuf (Nat.zero_le 3) (Nat.zero_le 9) (fun failed => absurd rfl failed) rfl
  | okDecoded h9 => exact legal_respond_of_zeroBuf (Nat.zero_le 3) (truncates h9) (fun failed => absurd rfl failed) rfl
  | okBytes a => exact legal_respond_encodeValue a s
  | error k =>
    have status : k.code.toNat ≤ 3 := by cases k <;> decide
    exact legal_respond_of_zeroBuf status (Nat.zero_le 9) (fun _ => ⟨rfl, rfl⟩) rfl

/-- Settles O54: a step either holds the state or writes one of the block's responses. -/
theorem everyStepKeepsTheRegistersLegal : Obligations.EveryStepKeepsTheRegistersLegal := by
  intro s t legal next
  obtain ⟨-, holds⟩ | ⟨e, rest, r, -, written, writes⟩ := step_writes s
  · exact Host.Outcome.next.inj (holds.symm.trans next) ▸ legal
  · exact Host.Outcome.next.inj (writes.symm.trans next) ▸ legal_respond written _

/-- The registers after reset are those of a response that carries no length and no value. -/
theorem legal_resetOf (c : Config) : (State.resetOf c).Legal :=
  legal_respond (.okLen (Nat.zero_le 9)) (State.resetOf c)

/-- Settles O55: `State.reset` is the block of the default build. -/
theorem resetRegistersAreLegal : Obligations.ResetRegistersAreLegal :=
  ⟨legal_resetOf, legal_resetOf Config.standard⟩

/-- Settles O46: the response an instruction writes is legal, and a legal failure carries nothing. -/
theorem failuresCarryNothingButTheirKind : Obligations.FailuresCarryNothingButTheirKind := by
  intro i s t next failed
  obtain ⟨resp, responds⟩ := exists_responds i
  have legal : t.Legal := responds.eq_of_next next ▸ legal_respond (responds.1 _) s
  obtain ⟨length, value, bytes⟩ := legal.errorsCarryNothing failed
  exact ⟨legal.statusWritten, rfl, length, value, bytes⟩

/-! ### The 65-entry table -/

/-- The table of encoded lengths by leading zeros is `lenOfBits` of the significant bits (40_length.md R92, R93). -/
theorem lenOfBits_eq_table : ∀ k < 65, lenOfBits (64 - k) =
    (List.replicate 8 9 ++ List.replicate 7 8 ++ List.replicate 7 7 ++ List.replicate 7 6 ++ List.replicate 7 5 ++
      List.replicate 7 4 ++ List.replicate 7 3 ++ List.replicate 7 2 ++ List.replicate 8 1).getD k 0 := by
  decide

/-- Settles O13: a value with `k` leading zeros has `64 - k` significant bits. -/
theorem enclenFollowsTheLeadingZeroTable : Obligations.EnclenFollowsTheLeadingZeroTable := by
  intro a s k zeros
  have significant : k < 65 ∧ a.toNat < 2 ^ (64 - k) ∧ (1 ≤ 64 - k → 2 ^ (64 - k - 1) ≤ a.toNat) := by
    rcases zeros with ⟨rfl, rfl⟩ | ⟨h63, lower, upper⟩
    · decide
    · have place : 64 - k - 1 = 63 - k := by omega
      exact ⟨by omega, upper, fun _ => place ▸ lower⟩
  obtain ⟨h64, upper, lower⟩ := significant
  rw [answers_enclen_iff, ← lenOfBits_eq_table k h64]
  exact lenOfBits_least (Nat.sub_le 64 k) upper lower

end Sys2Proof.Machine
end

section
/-! PROOFS. The host's sequences: streams of encodings, containers, and their signed forms (30_encoding.md R77,
60_exceptions.md section 8). -/

namespace Sys2Proof.Machine

open Sys2Proof

/-! ### Split decodes of exactly the announced follow bytes -/

section AsmDecs

variable {b : Byte} {follow : List Byte} {L : Nat} (announces : Announces b.toNat L) (len : follow.length = L - 1)
include announces len

/-- The request the assembler writes hands the follow bytes to the shared end of the decoder (30_encoding.md R76). -/
theorem decodeSplit_asmDecs :
    decodeSplit (followCount follow).toNat b (bufOfList (follow.take (Config.maxLen - 1))) =
      finishDecode L b (packLe follow) := by
  obtain ⟨-, h9, -⟩ := id announces
  have h8 : follow.length ≤ Config.maxLen - 1 := len ▸ Nat.sub_le_sub_right h9 1
  have count : (followCount follow).toNat = L - 1 := by
    rw [followCount, Nat.min_eq_left h8, len, BitVec.toNat_ofNat]
    omega
  have slice : bufSlice (bufOfList follow) 0 (L - 1) = follow := by
    rw [bufSlice_bufOfList (le_of_eq len.symm) (by omega), ← len, List.take_length]
  rw [count, List.take_of_length_le h8, decodeSplit_of_complete announces (Nat.le_refl _), slice]

theorem exec_asmDecs_next (s : State) :
    exec (asmDecs b follow) s = .next (respond (resultResponse (finishDecode L b (packLe follow))) s) := by
  rw [asmDecs, exec_decs_eq_deliver, decodeSplit_asmDecs announces len, deliver_eq]

theorem exec_asmDecsi_next {s : State} (hs : s.config.hasSigned = true) :
    exec (asmDecsi b follow) s =
      .next (respond (resultResponse (signedResult (finishDecode L b (packLe follow)))) s) := by
  rw [asmDecsi, exec_decsi_eq_deliver hs, decodeSplit_asmDecs announces len, deliver_eq]

end AsmDecs

/-! ### Reading a stream -/

/-- A stream either runs dry before the bytes its first byte announces, whatever the read's decode, or has these bytes
at its front (60_exceptions.md R189). -/
theorem stream_cases (stream : List Byte) :
    ((∀ f s, hostReadWith f stream s = none) ∧ ∀ L, Announces (stream.headD 0).toNat L → stream.length < L) ∨
      ∃ b follow rest L, stream = b :: (follow ++ rest) ∧ Announces b.toNat L ∧ follow.length = L - 1 := by
  cases stream with
  | nil => exact .inl ⟨fun _ _ => rfl, fun L announces => announces.1⟩
  | cons b tail =>
    have announces := decodedLen_announces b
    by_cases short : tail.length < decodedLen b - 1
    · refine .inl ⟨fun f s => ?_, fun L announces' => ?_⟩
      · rw [hostReadWith_cons announces, if_pos short]
      · rw [List.headD_cons] at announces'
        obtain rfl := announces_unique announces announces'
        exact Nat.add_lt_of_lt_sub short
    · refine .inr ⟨b, tail.take (decodedLen b - 1), tail.drop (decodedLen b - 1), _, ?_, announces, ?_⟩
      · rw [List.take_append_drop]
      · exact List.length_take_of_le (Nat.le_of_not_lt short)

section Read

variable {b : Byte} {follow : List Byte} {L : Nat} (announces : Announces b.toNat L) (len : follow.length = L - 1)
include announces len

/-- The read of a stream with all announced bytes: the split decode of these bytes, and the rest is left. -/
theorem hostReadWith_of_complete (f : Byte → List Byte → Instr) (rest : List Byte) (s : State) :
    hostReadWith f (b :: (follow ++ rest)) s =
      thenHost (exec (f b follow) (respond (okLen L) s)) fun u => some (u, rest) := by
  have complete : ¬ (follow ++ rest).length < L - 1 := by
    rw [List.length_append]
    omega
  rw [hostReadWith_cons announces, if_neg complete, List.take_left' len, List.drop_left' len]

theorem hostReadOne_of_complete (rest : List Byte) (s : State) :
    hostReadOne (b :: (follow ++ rest)) s =
      some (respond (resultResponse (finishDecode L b (packLe follow))) s, rest) := by
  rw [hostReadOne, hostReadWith_of_complete announces len, exec_asmDecs_next announces len, thenHost_next]
  rfl

theorem hostReadOneSigned_of_complete (rest : List Byte) {s : State} (hs : s.config.hasSigned = true) :
    hostReadOneSigned (b :: (follow ++ rest)) s =
      some (respond (resultResponse (signedResult (finishDecode L b (packLe follow)))) s, rest) := by
  rw [hostReadOneSigned, hostReadWith_of_complete announces len,
    exec_asmDecsi_next (s := respond (okLen L) s) announces len hs, thenHost_next]
  rfl

end Read

/-- The shared end of the decoder succeeds or finds the value too small, and nothing else (42_decode.md R132). -/
theorem finishDecode_status (L : Nat) (b : Byte) (F : Word) :
    (resultResponse (finishDecode L b F)).stat.toNat = 0 ∨ (resultResponse (finishDecode L b F)).stat.toNat = 2 := by
  simp only [finishDecode]
  split
  · exact .inl rfl
  · exact .inr rfl

/-- Settles O56: the block is asked only once all announced bytes are there, so it cannot find them missing. -/
theorem streamReadNeverMeetsTruncated : Obligations.StreamReadNeverMeetsTruncated := by
  refine ⟨fun stream rest s t read => ?_, fun stream s L unanswered announces => ?_⟩
  · obtain ⟨dry, -⟩ | ⟨b, follow, rest', L, rfl, announces, len⟩ := stream_cases stream
    · rw [hostReadOne, dry] at read
      cases read
    · rw [hostReadOne_of_complete announces len] at read
      obtain ⟨rfl, rfl⟩ := Prod.mk.inj (Option.some.inj read)
      have consumed : (b :: follow).length = L := by
        rw [List.length_cons, len]
        exact Nat.sub_add_cancel announces.1
      exact ⟨finishDecode_status _ _ _, b :: follow, rfl, consumed.symm ▸ announces⟩
  · obtain ⟨-, short⟩ | ⟨b, follow, rest, L', rfl, announces', len⟩ := stream_cases stream
    · exact short L announces
    · rw [hostReadOne_of_complete announces' len] at unanswered
      cases unanswered

/-! ### Writing to a stream, and reading back -/

/-- After an encode the significant bytes of the result registers are the encoding (10_state.md R23). -/
theorem resultBytes_encodeValue (a : Word) (s : State) :
    resultBytes (respond (okBytes (encodeValue a)) s) = encodeValue a := by
  rw [resultBytes, respond_encodeValue_rlen]
  exact bufSlice_encodeValue a

/-- A write whose encode succeeds writes the encoding. -/
theorem hostWriteWith_of_encodes {i : Instr} {a : Word} {s : State}
    (h : exec i s = .next (respond (okBytes (encodeValue a)) s)) :
    hostWriteWith i s = some (respond (okBytes (encodeValue a)) s, encodeValue a) := by
  have ok : (respond (okBytes (encodeValue a)) s).rstat = 0 := rfl
  rw [hostWriteWith, h, thenHost_next, if_pos ok, resultBytes_encodeValue]

/-- Every encoding is a first byte and the follow bytes it announces, and decodes to its value. -/
theorem exists_encodeValue_eq_cons (a : Word) :
    ∃ b follow, encodeValue a = b :: follow ∧ Announces b.toNat (encodedLen a) ∧
      follow.length = encodedLen a - 1 ∧
      finishDecode (encodedLen a) b (packLe follow) = .ok { len := encodedLen a, val := a } := by
  have encoding := encodeValue_eq_cons a
  obtain ⟨announces, len, -⟩ := unpack_of_encodeValue encoding
  exact ⟨_, _, encoding, announces, len, (finishDecode_eq_ok_iff announces len).mpr ⟨rfl, encoding⟩⟩

/-- The read of a stream that begins with an encoding decodes its value and leaves what follows. -/
theorem hostReadOne_encodeValue (a : Word) (rest : List Byte) (s : State) :
    hostReadOne (encodeValue a ++ rest) s = some (respond (okDecoded (encodedLen a) a) s, rest) := by
  obtain ⟨b, follow, encoding, announces, len, decodes⟩ := exists_encodeValue_eq_cons a
  rw [encoding, List.cons_append, hostReadOne_of_complete announces len, decodes]
  rfl

/-- The signed read decodes the zigzag image, and the zigzag step gives the operand back. -/
theorem hostReadOneSigned_encodeValue {s : State} (hs : s.config.hasSigned = true) (a : Word) (rest : List Byte) :
    hostReadOneSigned (encodeValue (zigzagEncode a) ++ rest) s =
      some (respond (okDecoded (encodedLen (zigzagEncode a)) a) s, rest) := by
  obtain ⟨b, follow, encoding, announces, len, decodes⟩ := exists_encodeValue_eq_cons (zigzagEncode a)
  rw [encoding, List.cons_append, hostReadOneSigned_of_complete announces len rest hs, decodes,
    signedResult_zigzagEncode]
  rfl

/-- A decoded value shows `OK`, its length and itself. -/
theorem shows_okDecoded {L : Nat} (h9 : L ≤ 9) (val : Word) (s : State) :
    Shows (respond (okDecoded L val) s) 0 L val.toNat noBytes := by
  have fits : L % 16 = L := Nat.mod_eq_of_lt (by omega)
  simp [Shows, okDecoded, statusOk, noBytes, fits]

/-- Settles O57: the write yields the value's encoding, and the read decodes exactly that. -/
theorem streamWriteThenReadGivesTheValueBack : Obligations.StreamWriteThenReadGivesTheValueBack := by
  intro a s rest
  refine ⟨_, _, _, hostWriteWith_of_encodes (exec_enc_next a s), hostReadOne_encodeValue a rest _, ?_⟩
  rw [encodeValue_length]
  exact shows_okDecoded (encodedLen_least a).2.1 a _

/-- The signed write yields the encoding of the zigzag image, and the signed read decodes exactly that. -/
theorem signed_write_then_read {s : State} (hs : s.config.hasSigned = true) (a : Word) (rest : List Byte) :
    ∃ t bytes u, hostWriteOneSigned a s = some (t, bytes) ∧ hostReadOneSigned (bytes ++ rest) t = some (u, rest) ∧
      Shows u 0 bytes.length a.toNat noBytes := by
  have reads := hostReadOneSigned_encodeValue (s := respond (okBytes (encodeValue (zigzagEncode a))) s) hs a rest
  refine ⟨_, _, _, hostWriteWith_of_encodes (exec_enci_next hs a), reads, ?_⟩
  rw [encodeValue_length]
  exact shows_okDecoded (encodedLen_least (zigzagEncode a)).2.1 a _

/-- What the zigzag step leaves of a result: everything but the value of a success (43_zigzag_signed.md R160). -/
theorem resultResponse_signedResult (r : Except ErrKind Decoded) :
    (resultResponse (signedResult r)).stat = (resultResponse r).stat ∧
      (resultResponse (signedResult r)).len = (resultResponse r).len ∧
      (resultResponse (signedResult r)).buf = (resultResponse r).buf ∧
      ((resultResponse r).stat.toNat = 0 →
        (resultResponse (signedResult r)).val = zigzagDecode (resultResponse r).val) := by
  cases r with
  | ok d => exact ⟨rfl, rfl, rfl, fun _ => rfl⟩
  | error k => exact ⟨rfl, rfl, rfl, fun ok => absurd ok (errKind_code_toNat_ne_zero k)⟩

/-- Settles O59: both reads consume the same bytes, and the signed one applies the zigzag step to the result. -/
theorem signedStreamFollowsTheUnsignedOne : Obligations.SignedStreamFollowsTheUnsignedOne := by
  refine fun s hs => ⟨signed_write_then_read hs, fun stream => ?_⟩
  obtain ⟨dry, -⟩ | ⟨b, follow, rest, L, rfl, announces, len⟩ := stream_cases stream
  · exact .inl ⟨dry _ s, dry _ s⟩
  · obtain ⟨status, length, bytes, value⟩ := resultResponse_signedResult (finishDecode L b (packLe follow))
    exact .inr ⟨_, _, rest, hostReadOne_of_complete announces len rest s,
      hostReadOneSigned_of_complete announces len rest hs, status, length, bytes,
      fun ok => (congrArg BitVec.toNat (value ok)).trans (zigzagDecode_toNat _)⟩

/-! ### The signed sequences without the zigzag unit -/

section WithoutUnit

variable {s : State} (hs : s.config.hasSigned = false)
include hs

theorem exec_of_isSigned_without {i : Instr} (signed : i.isSigned = true) :
    exec i s = .next (raise .illegalOp s) := by
  obtain ⟨m, gated⟩ := exec_eq_withSigned_of_isSigned signed
  exact (gated s).trans (withSigned_of_not_hasSigned hs m)

/-- The signed encoded length ends at `ZZENC`'s `IllegalOp` (log entry 17). -/
theorem hostEncleni_without (v : Word) : hostEncleni v s = some (raise .illegalOp s) := by
  have failed : (raise .illegalOp s).rstat ≠ 0 := by rw [raise_rstat]; decide
  rw [hostEncleni, exec_of_isSigned_without hs rfl, thenHost_next, if_neg failed]

/-- The signed write ends at `ENCI`'s `IllegalOp` and writes nothing (log entry 17). -/
theorem hostWriteOneSigned_without (v : Word) : hostWriteOneSigned v s = some (raise .illegalOp s, []) := by
  have failed : (raise .illegalOp s).rstat ≠ 0 := by rw [raise_rstat]; decide
  rw [hostWriteOneSigned, hostWriteWith, exec_of_isSigned_without hs rfl, thenHost_next, if_neg failed]

/-- The signed read ends at `DECSI`'s `IllegalOp`, with the announced bytes consumed (log entry 17). -/
theorem hostReadOneSigned_without {b : Byte} {follow : List Byte} {L : Nat} (announces : Announces b.toNat L)
    (len : follow.length = L - 1) (rest : List Byte) :
    hostReadOneSigned (b :: (follow ++ rest)) s = some (raise .illegalOp s, rest) := by
  have illegal : exec (asmDecsi b follow) (respond (okLen L) s) = .next (raise .illegalOp (respond (okLen L) s)) :=
    exec_of_isSigned_without (s := respond (okLen L) s) hs rfl
  rw [hostReadOneSigned, hostReadWith_of_complete announces len, illegal, thenHost_next]
  rfl

end WithoutUnit

/-- Settles O60: each sequence ends at its first signed operation. -/
theorem signedHostSequencesWithoutTheUnit : Obligations.SignedHostSequencesWithoutTheUnit := by
  have illegal (s : State) : Shows (raise .illegalOp s) 3 0 0 noBytes := raise_shows .illegalOp s
  refine fun s hs => ⟨fun v => ⟨_, hostEncleni_without hs v, illegal s⟩,
    fun v => ⟨_, hostWriteOneSigned_without hs v, illegal s⟩, fun stream rest t read => ?_⟩
  obtain ⟨dry, -⟩ | ⟨b, follow, rest', L, rfl, announces, len⟩ := stream_cases stream
  · rw [hostReadOne, dry] at read
    cases read
  · rw [hostReadOne_of_complete announces len] at read
    obtain ⟨-, rfl⟩ := Prod.mk.inj (Option.some.inj read)
    exact ⟨_, hostReadOneSigned_without hs announces len rest', illegal s⟩

/-! ### Containers -/

/-- A slice of at most nine bytes that `DEC` accepts begins with the encoding of its value (30_encoding.md R76, R77). -/
theorem encodeValue_of_asmDec_ok {bytes : List Byte} {s t : State} (h9 : bytes.length ≤ 9)
    (next : exec (asmDec bytes) s = .next t) (ok : t.rstat = 0) :
    encodedLen t.rval = t.rlen.toNat ∧ encodeValue t.rval = bytes.take t.rlen.toNat := by
  obtain ⟨length, complete, encoding⟩ := exec_dec_ok next ok
  have count : (sliceCount bytes).toNat = bytes.length := by
    rw [sliceCount, Nat.min_eq_left (b := Config.maxLen) h9, BitVec.toNat_ofNat]
    omega
  rw [count] at complete
  rw [List.take_of_length_le (i := Config.maxLen) h9, bufSlice_bufOfList complete (complete.trans h9)] at encoding
  exact ⟨length, encoding⟩

/-- Settles O58: `ENC` of a decoded slice's value writes the bytes the slice begins with; a failure is propagated. -/
theorem containerFromASliceHoldsItsEncoding : Obligations.ContainerFromASliceHoldsItsEncoding := by
  intro bytes s t h9 next
  rw [hostContainer, next, thenHost_next]
  by_cases ok : t.rstat = 0
  · obtain ⟨length, encoding⟩ := encodeValue_of_asmDec_ok h9 next ok
    rw [if_pos ok, exec_enc_next, thenHost_next]
    refine ⟨_, rfl, fun _ => ⟨rfl, BitVec.eq_of_toNat_eq ?_, ?_⟩, fun failed => ?_⟩
    · rw [respond_encodeValue_rlen, length]
    · rw [resultBytes_encodeValue, encoding]
    · exact absurd (congrArg BitVec.toNat ok) failed
  · rw [if_neg ok]
    exact ⟨t, rfl, fun succeeded => absurd (BitVec.eq_of_toNat_eq succeeded) ok, fun _ => rfl⟩

end Sys2Proof.Machine
end
